-- ==== Sys2Proof/Word.lean ====
section
/-! DEFINITION. The values the block works on: bits, bytes, sequences, and the three fixed-size formats of
spec/30_encoding.md Part A as records whose fields are named as the spec names their places. -/

namespace Sys2Proof

/-- A `Bit` (00_scope.md section 5.1): `false` is 0, `true` is 1. -/
abbrev Bit := Bool

/-- A `Byte`, 8 bits, unsigned (R40). -/
abbrev Byte := BitVec 8

/-- A `BitSequence`, element 0 first (R22, R23). -/
abbrev Bits := List Bit

/-- A `ByteSequence`, element 0 first (R21, R23). -/
abbrev Bytes := List Byte

/-- The value of one draw, a natural number 0..6 (R16). -/
abbrev Draw := Fin 7

/-- A `DataGroup`: exactly 4 bits, in order of arrival; a field's number is the Hamming position it goes to (R41). -/
structure DataGroup where
  d7 : Bit
  d6 : Bit
  d5 : Bit
  d3 : Bit
  deriving DecidableEq, Repr

/-- A `Codeword`: exactly 7 bits, array index 0 (`d7`) first, index 6 (`p1`) last (R42). Any of the 128 patterns. -/
structure Codeword where
  d7 : Bit
  d6 : Bit
  d5 : Bit
  p4 : Bit
  d3 : Bit
  p2 : Bit
  p1 : Bit
  deriving DecidableEq, Repr

/-- Three slots, slot 0 first: a position code (R44) or a `Syndrome3` `<s4, s2, s1>` (R47). -/
structure Triple where
  s4 : Bit
  s2 : Bit
  s1 : Bit
  deriving DecidableEq, Repr

end Sys2Proof
end

