-- ==== Sys2Proof/Syntax.lean ====
section
/-! DEFINITION. What the host sends (a request: control word and operand) and the block's six operations as one
inductive, one constructor for each row of spec/opcode_table.json. -/

namespace Sys2Proof

/-- An operand or a result: "ByteSequence or BitSequence" (R49, R50). -/
inductive Payload where
  | bytes (B : Bytes)
  | bits (S : Bits)
  deriving DecidableEq, Repr

/-- The number of elements of the sequence: bytes of a ByteSequence, bits of a BitSequence (R37). -/
def Payload.length : Payload → Nat
  | .bytes B => B.length
  | .bits S => S.length

/-- `Request = { ctl : 4 bits, operand }` (R49). -/
structure Request where
  ctl : BitVec 4
  operand : Payload
  deriving DecidableEq, Repr

/-- The six operations with their typed operands (R7, R51, R52, and R51's last sentence: the mnemonics may be the
constructors of an inductive type). -/
inductive Instr where
  /-- `UNPACK B` (R61). -/
  | unpack (B : Bytes)
  /-- `PACK pad S` (R63). -/
  | pack (pad : Bit) (S : Bits)
  /-- `ENCODE S` (R73). -/
  | encode (S : Bits)
  /-- `INJECT S` (R81). -/
  | inject (S : Bits)
  /-- `SYNDROME C`, whose operand is exactly one Codeword (R92). -/
  | syndrome (C : Codeword)
  /-- `DECODE S` (R97). -/
  | decode (S : Bits)
  deriving DecidableEq, Repr

end Sys2Proof
end

