-- ==== Sys2Proof/WellFormed.lean ====
section
/-! DEFINITION. The reasons a request is ill-formed (R53) and the check on a decoded operation: its operand and its
result, by the length laws of R52, are no longer than MAXLEN. -/

namespace Sys2Proof

/-- Why a request is ill-formed, the cases of R53. All of them have the same empty effect (R122, R125). -/
inductive IllFormed where
  /-- `op` is 6 or 7. -/
  | reservedOp
  /-- The operand is not of the type R52 gives for the operation. -/
  | operandType
  /-- `SYNDROME` with an operand whose length is not 7. -/
  | syndromeLength
  /-- MAXLEN is fixed and the operand is longer. -/
  | operandTooLong
  /-- MAXLEN is fixed and the result would be longer. -/
  | resultTooLong
  deriving DecidableEq, Repr

/-- A length is allowed by MAXLEN, where `none` is no bound (R5, R37). -/
def fits (maxLen : Option Nat) (n : Nat) : Bool :=
  match maxLen with
  | none => true
  | some m => decide (n ≤ m)

/-- Operand length of each operation (R52). -/
def Instr.operandLength : Instr → Nat
  | .unpack B => B.length
  | .pack _ S => S.length
  | .encode S => S.length
  | .inject S => S.length
  | .syndrome _ => 7
  | .decode S => S.length

/-- Result length of each operation (R52); `ceil_div(n, m) = (n + m - 1) div m`. -/
def Instr.resultLength : Instr → Nat
  | .unpack B => 8 * B.length
  | .pack true S => (S.length + 7) / 8
  | .pack false S => S.length / 8
  | .encode S => 7 * ((S.length + 3) / 4)
  | .inject S => S.length
  | .syndrome _ => 3
  | .decode S => 4 * (S.length / 7)

/-- The first length check of R53 that the operation fails, if any. -/
def Instr.check (maxLen : Option Nat) (i : Instr) : Option IllFormed :=
  if fits maxLen i.operandLength then
    if fits maxLen i.resultLength then none else some .resultTooLong
  else some .operandTooLong

/-- Well-formed under MAXLEN (R53). -/
abbrev Instr.WellFormed (maxLen : Option Nat) (i : Instr) : Prop :=
  i.check maxLen = none

end Sys2Proof
end

