-- ==== Sys2Proof/Decode.lean ====
section
/-! DEFINITION. The request decoder, total on every control word and operand and refusing by name (R49, R51 to R53),
the encoder, and the two entry points for words numbered as spec/opcode_table.json numbers them. -/

namespace Sys2Proof

/-- The 7 bits of a Codeword in sequence order (R42). -/
def Codeword.toBits (C : Codeword) : Bits :=
  [C.d7, C.d6, C.d5, C.p4, C.d3, C.p2, C.p1]

/-- A BitSequence of length exactly 7 as a Codeword (R42); no other length is one. -/
def Codeword.ofBits : Bits → Option Codeword
  | [a, b, c, d, e, f, g] => some ⟨a, b, c, d, e, f, g⟩
  | _ => none

/-- `op = ctl[2:0]` (R49). -/
def Request.op (r : Request) : Nat :=
  r.ctl.toNat % 8

/-- `pad = ctl[3]` (R49). -/
def Request.pad (r : Request) : Bit :=
  r.ctl.getLsbD 3

/-- An operation that takes a ByteSequence (R52). -/
def onBytes (k : Bytes → Instr) : Payload → Except IllFormed Instr
  | .bytes B => .ok (k B)
  | .bits _ => .error .operandType

/-- An operation that takes a BitSequence of any length (R52). -/
def onBits (k : Bits → Instr) : Payload → Except IllFormed Instr
  | .bits S => .ok (k S)
  | .bytes _ => .error .operandType

/-- An operation that takes exactly one Codeword (R52, R53). -/
def onCodeword (k : Codeword → Instr) : Payload → Except IllFormed Instr
  | .bits S =>
    match Codeword.ofBits S with
    | some C => .ok (k C)
    | none => .error .syndromeLength
  | .bytes _ => .error .operandType

/-- The operation map (R51) with the operand types of R52; `op` 6 and 7 are reserved (R53). -/
def decodeRequest (r : Request) : Except IllFormed Instr :=
  match r.op with
  | 0 => onBytes .unpack r.operand
  | 1 => onBits (.pack r.pad) r.operand
  | 2 => onBits .encode r.operand
  | 3 => onBits .inject r.operand
  | 4 => onCodeword .syndrome r.operand
  | 5 => onBits .decode r.operand
  | _ => .error .reservedOp

/-- The request that spells an operation (R49, R51). `ctl[3]` is written 0 where it is ignored: DESIGN CHOICE, safe,
log entry 9. -/
def encodeRequest : Instr → Request
  | .unpack B => ⟨0x0#4, .bytes B⟩
  | .pack true S => ⟨0x9#4, .bits S⟩
  | .pack false S => ⟨0x1#4, .bits S⟩
  | .encode S => ⟨0x2#4, .bits S⟩
  | .inject S => ⟨0x3#4, .bits S⟩
  | .syndrome C => ⟨0x4#4, .bits C.toBits⟩
  | .decode S => ⟨0x5#4, .bits S⟩

/-- The operand that stands beside a bare control word: one granule of zeros of the type and width R27 and R52 give
the operation. Log entry 10. -/
def zeroOperand (op : Nat) : Payload :=
  match op with
  | 0 => .bytes [0x00#8]
  | 1 => .bits (List.replicate 8 false)
  | 2 => .bits (List.replicate 4 false)
  | _ => .bits (List.replicate 7 false)

/-- The request of a control word `w` of the opcode table: 4 bits, bit 0 the least significant (R49), whose operand is
zeros. A word with a bit above `ctl[3]` is no control word. -/
def tableRequest (_nbits w : Nat) : Option Request :=
  if w < 16 then some ⟨BitVec.ofNat 4 w, zeroOperand (w % 8)⟩ else none

/-- The operation the decoder reads from the table's word `w`, none where it refuses. -/
def decodeTableWord (nbits w : Nat) : Option Instr :=
  match tableRequest nbits w with
  | some r => (decodeRequest r).toOption
  | none => none

end Sys2Proof
end

