-- ==== Sys2Proof/Machine/Operands.lean ====
section
/-! DEFINITION. Operand forms: the bits of a byte (R60, R62), padding and truncation to a granule (R27 to R29), the
windows of 8, 4 and 7 bits from offset 0 (R25, R27), and the places of a codeword by array index and by Hamming
position (R43). -/

namespace Sys2Proof.Machine

/-- `unpack_byte(b)`: bit 7 first (R60). -/
def unpackByte (b : Byte) : Bits :=
  [b.getLsbD 7, b.getLsbD 6, b.getLsbD 5, b.getLsbD 4, b.getLsbD 3, b.getLsbD 2, b.getLsbD 1, b.getLsbD 0]

/-- `pack_byte(W)` of the 8 bits of `W`, the first with weight 128 (R62). -/
def packByte (w0 w1 w2 w3 w4 w5 w6 w7 : Bit) : Byte :=
  BitVec.ofNat 8 (128 * w0.toNat + 64 * w1.toNat + 32 * w2.toNat + 16 * w3.toNat
    + 8 * w4.toNat + 4 * w5.toNat + 2 * w6.toNat + w7.toNat)

/-- `pad_to(S, m)`: the fewest zero bits appended that reach a multiple of `m` (R28, 00_scope.md section 5.3). -/
def padTo (m : Nat) (S : Bits) : Bits :=
  S ++ List.replicate ((m - S.length % m) % m) false

/-- The largest prefix whose length is a multiple of `m` (R29). -/
def truncTo (m : Nat) (S : Bits) : Bits :=
  S.take (m * (S.length / m))

/-- What stands after that prefix (R84). -/
def remainder (m : Nat) (S : Bits) : Bits :=
  S.drop (m * (S.length / m))

/-- The whole 8-bit windows from offset 0, each packed into a byte (R25, R62). -/
def byteWindows : Bits → Bytes
  | w0 :: w1 :: w2 :: w3 :: w4 :: w5 :: w6 :: w7 :: rest => packByte w0 w1 w2 w3 w4 w5 w6 w7 :: byteWindows rest
  | _ => []

/-- The whole 4-bit windows from offset 0 (R41). -/
def groupWindows : Bits → List DataGroup
  | a :: b :: c :: d :: rest => ⟨a, b, c, d⟩ :: groupWindows rest
  | _ => []

/-- The whole 7-bit windows from offset 0 (R80, R98). -/
def wordWindows : Bits → List Codeword
  | a :: b :: c :: d :: e :: f :: g :: rest => ⟨a, b, c, d, e, f, g⟩ :: wordWindows rest
  | _ => []

/-- The 4 bits of a DataGroup in order of arrival (R41). -/
def groupBits (G : DataGroup) : Bits :=
  [G.d7, G.d6, G.d5, G.d3]

/-- The 3 bits of a syndrome, slot 0 first (R47, R92). -/
def tripleBits (t : Triple) : Bits :=
  [t.s4, t.s2, t.s1]

/-- `C[i]`, the bit at array index `i` (R42). -/
def bitAt (C : Codeword) (i : Fin 7) : Bit :=
  match i with
  | 0 => C.d7
  | 1 => C.d6
  | 2 => C.d5
  | 3 => C.p4
  | 4 => C.d3
  | 5 => C.p2
  | 6 => C.p1

/-- `C` with the bit at array index `i` negated (R83, R94). -/
def flipAt (C : Codeword) (i : Fin 7) : Codeword :=
  match i with
  | 0 => { C with d7 := !C.d7 }
  | 1 => { C with d6 := !C.d6 }
  | 2 => { C with d5 := !C.d5 }
  | 3 => { C with p4 := !C.p4 }
  | 4 => { C with d3 := !C.d3 }
  | 5 => { C with p2 := !C.p2 }
  | 6 => { C with p1 := !C.p1 }

/-- `idx(p) = 7 - p`, the array index of Hamming position `p` in 1..7 (R43). -/
def indexOf (p : Nat) : Fin 7 :=
  Fin.ofNat 7 (7 - p)

end Sys2Proof.Machine
end

