-- ==== Sys2Proof/Config.lean ====
section
/-! DEFINITION. The random source `RS`, the parameter the source leaves open (R5, R10, R16, R17): plain data for its
state, and free values, constants without a body, for what nothing in the spec fixes. The other open parameter,
MAXLEN, is the field `maxLen` of State (log entry 8). -/

namespace Sys2Proof

/-- `RSState`, opaque in the spec (R10). Log entry 4 (DESIGN CHOICE, safe): the draws the source is set to answer
next, and after them how many free draws it has answered. Every sequence of draws is the answer of some state (R16). -/
structure RSState where
  queued : List Draw
  spent : Nat
  deriving DecidableEq, Repr, Inhabited

/-- The free value of a draw that nothing queued: any natural number 0..6, under no law (R16, U2). Log entry 4. -/
opaque Config.freeDraw : Nat → Draw

/-- A free random-source state: what seeding leaves (R17: "any RSState") and what `rs` is after a reset during a run
(R18: unspecified). Indexed so that each taking is a value of its own. Log entry 5. -/
opaque Config.freeSource : Nat → RSState

end Sys2Proof
end

