-- ==== Sys2Proof/Machine/State.lean ====
section
/-! DEFINITION. The machine's state as plain data, the reasons a step can stop, and the state after reset. -/

namespace Sys2Proof.Machine

/-- The faults of the block: none. "The set of exception causes is empty" (R120), so nothing raises one. -/
inductive Fault : Type
  deriving DecidableEq, Repr

/-- Why an operation has no step. -/
inductive Refusal where
  /-- Raised by an arm of `exec` whose instruction has no meaning yet (no arm now). Safe: nothing is claimed. -/
  | notModelled (mnemonic : String)
  /-- Raised by every meaning whose operand or result is longer than MAXLEN (R53, R122), through `respond`.
  Safe: the block takes no step, changes no state and yields no response. -/
  | illFormed (why : IllFormed)
  deriving DecidableEq, Repr

/-- `Response = { result }` (R50): no status field, no error field. -/
structure Response where
  result : Payload
  deriving DecidableEq, Repr

/-- What the host may do to the block (R154): reset it, or issue one request. -/
inductive HostAction where
  | reset
  | request (r : Request)
  deriving DecidableEq, Repr

/-- The whole architectural state of the block, the spec's `State = { seeded, rs }` (R10, R11). -/
structure Block where
  /-- whether the random source has been initialised (R17) -/
  seeded : Bit
  /-- the state of the random source (R16) -/
  rs : RSState
  deriving DecidableEq, Repr

/-- The block with the parameter it is built for and the host's side of a run. -/
structure State where
  /-- the spec's state (R10) -/
  block : Block
  /-- the parameter MAXLEN, `none` for no bound; no step writes it (R5, log entry 8) -/
  maxLen : Option Nat
  /-- MODEL's own: how many free random-source states have been taken (log entry 5) -/
  fresh : Nat
  /-- the host's actions still to come, first first (R154, R155, log entry 1) -/
  pending : List HostAction
  /-- the observation so far: a response, or none for a refused request (R155, log entry 1) -/
  observed : List (Option Response)
  deriving DecidableEq, Repr

/-- Right after reset (R18, R140): `seeded = 0`. `rs` is unspecified there, and the value here is the model's
(DESIGN CHOICE, unsafe, log entry 6). MAXLEN is the default of R5. Nothing is pending, nothing observed. -/
def State.reset : State where
  block := { seeded := false, rs := { queued := [], spent := 0 } }
  maxLen := none
  fresh := 0
  pending := []
  observed := []

end Sys2Proof.Machine
end

