-- ==== Sys2Proof/Machine/Ops.lean ====
section
/-! DEFINITION. The named operations over the state: a draw and the once-only seeding (R16, R17), a response (R50),
"no response" (R122, R155), the reset a host may order (R140, R154), and the one place where MAXLEN refuses (R53).
There is no exception to take and none to return from (R120, R126, R127). -/

namespace Sys2Proof.Machine

/-- `draw()`: the next value of the random source, 0..6, and the source after it (R16). -/
def draw (rs : RSState) : Draw × RSState :=
  match rs.queued with
  | r :: later => (r, { rs with queued := later })
  | [] => (Config.freeDraw rs.spent, { rs with spent := rs.spent + 1 })

/-- Seeding on first use: `rs` becomes any RSState and `seeded` becomes 1; nothing when already seeded (R17, R143). -/
def State.seedSource (s : State) : State :=
  if s.block.seeded then s
  else { s with block := { seeded := true, rs := Config.freeSource s.fresh }, fresh := s.fresh + 1 }

/-- The random source after an operation's draws (R81). -/
def State.withSource (s : State) (rs : RSState) : State :=
  { s with block := { s.block with rs := rs } }

/-- The response to an accepted request (R50, R155). -/
def State.reply (s : State) (y : Payload) : State :=
  { s with observed := s.observed ++ [some { result := y }] }

/-- A refused request: nothing of the block changes, and "no response" is recorded (R122, R155). -/
def State.noResponse (s : State) : State :=
  { s with observed := s.observed ++ [none] }

/-- The host's reset: `seeded` 0, `rs` unspecified, a free value (R140, R154). Log entry 7. -/
def State.hostReset (s : State) : State :=
  { s with block := { seeded := false, rs := Config.freeSource s.fresh }, fresh := s.fresh + 1 }

/-- The length check of R53 that an operand `x` with result `y` fails, if any. -/
def overlong (maxLen : Option Nat) (x y : Payload) : Option IllFormed :=
  if fits maxLen x.length then
    if fits maxLen y.length then none else some .resultTooLong
  else some .operandTooLong

/-- The end of every operation: from `s`, on operand `x`, with result `y` and the state `t` its effect leaves, it
answers `t` with the response recorded, or is refused by MAXLEN with no effect at all (R37, R53, R122). -/
def respond (x y : Payload) (s t : State) : Host.Outcome State Fault Refusal :=
  match overlong s.maxLen x y with
  | some why => .refused (.illFormed why)
  | none => .next (t.reply y)

end Sys2Proof.Machine
end

