-- ==== Sys2Proof/Machine/BitPacker.lean ====
section
/-! DEFINITION. The BitPacker: UNPACK (R61) and PACK (R63 to R65). -/

namespace Sys2Proof.Machine

/-- UNPACK's result: the bits of each byte, in byte order (R61). -/
def unpackBits (B : Bytes) : Bits :=
  B.flatMap unpackByte

/-- PACK's result: `pad = 1` appends zeros to a multiple of 8, `pad = 0` drops the bits that complete no byte (R63). -/
def packBits (pad : Bit) (S : Bits) : Bytes :=
  byteWindows (if pad then padTo 8 S else truncTo 8 S)

/-- `UNPACK B` (R61). -/
def execUnpack (B : Bytes) (s : State) : Host.Outcome State Fault Refusal :=
  respond (.bytes B) (.bits (unpackBits B)) s s

/-- `PACK pad S` (R63). -/
def execPack (pad : Bit) (S : Bits) (s : State) : Host.Outcome State Fault Refusal :=
  respond (.bits S) (.bytes (packBits pad S)) s s

end Sys2Proof.Machine
end

