-- ==== Sys2Proof/Machine/Flags.lean ====
section
/-! DEFINITION. The block has no flags (R14): no operation sets one. What the spec computes in their place is data:
the three parity checks (R46) and the syndrome (R90). -/

namespace Sys2Proof.Machine

/-- `code(p)`, the 3-bit binary representation of a Hamming position, weight 4 first (R44). -/
def positionCode (p : Nat) : Triple :=
  ⟨p.testBit 2, p.testBit 1, p.testBit 0⟩

/-- Exclusive or, slot by slot (R71, R90). -/
def xorSlots (t u : Triple) : Triple :=
  ⟨t.s4 ^^ u.s4, t.s2 ^^ u.s2, t.s1 ^^ u.s1⟩

/-- Record the position code of `p` if its bit is 1 (R71, R90). -/
def record (t : Triple) (p : Nat) (bit : Bit) : Triple :=
  if bit then xorSlots t (positionCode p) else t

/-- `synd7(C)` by the procedure of R90: every position 1..7 whose bit is 1, XOR-reduced slot by slot. -/
def synd7 (C : Codeword) : Triple :=
  [1, 2, 3, 4, 5, 6, 7].foldl (fun t p => record t p (bitAt C (indexOf p))) ⟨false, false, false⟩

/-- A triple as an integer, `4*t[0] + 2*t[1] + t[2]` (R44, R47). -/
def tripleInt (t : Triple) : Nat :=
  4 * t.s4.toNat + 2 * t.s2.toNat + t.s1.toNat

/-- `synd_int(C)`, 0..7 (R90). -/
def syndInt (C : Codeword) : Nat :=
  tripleInt (synd7 C)

/-- The three parity checks are even: a valid codeword (R46). -/
def validCodeword (C : Codeword) : Bool :=
  !(C.p1 ^^ C.d3 ^^ C.d5 ^^ C.d7) && !(C.p2 ^^ C.d3 ^^ C.d6 ^^ C.d7) && !(C.p4 ^^ C.d5 ^^ C.d6 ^^ C.d7)

end Sys2Proof.Machine
end

