-- ==== Sys2Proof/Machine/Decoder.lean ====
section
/-! DEFINITION. The syndrome calculator and the HammingDecoder: SYNDROME (R92) and DECODE (R94 to R98). -/

namespace Sys2Proof.Machine

/-- `correct7(C)`: negate the bit at the Hamming position the syndrome names, if it is not 0 (R94). -/
def correct7 (C : Codeword) : Codeword :=
  if syndInt C = 0 then C else flipAt C (indexOf (syndInt C))

/-- `extract4(D)`: the bits at positions 7, 6, 5, 3 (R95). -/
def extract4 (D : Codeword) : DataGroup :=
  ⟨D.d7, D.d6, D.d5, D.d3⟩

/-- `dec7(C)` (R96). -/
def dec7 (C : Codeword) : DataGroup :=
  extract4 (correct7 C)

/-- DECODE's result: four data bits for each whole word; the last `n mod 7` bits are discarded (R97, R98). -/
def decodeBits (S : Bits) : Bits :=
  (wordWindows S).flatMap fun C => groupBits (dec7 C)

/-- `SYNDROME C` (R92). -/
def execSyndrome (C : Codeword) (s : State) : Host.Outcome State Fault Refusal :=
  respond (.bits C.toBits) (.bits (tripleBits (synd7 C))) s s

/-- `DECODE S` (R97). -/
def execDecode (S : Bits) (s : State) : Host.Outcome State Fault Refusal :=
  respond (.bits S) (.bits (decodeBits S)) s s

end Sys2Proof.Machine
end

