-- ==== Sys2Proof/Machine/Encoder.lean ====
section
/-! DEFINITION. The HammingEncoder: ENCODE (R70 to R74), with the source's triple procedure beside the equations. -/

namespace Sys2Proof.Machine

/-- `enc4(G)`: position order 7,6,5,p4,3,p2,p1 with the parity equations of R70 (R72). -/
def enc4 (G : DataGroup) : Codeword where
  d7 := G.d7
  d6 := G.d6
  d5 := G.d5
  p4 := G.d5 ^^ G.d6 ^^ G.d7
  d3 := G.d3
  p2 := G.d3 ^^ G.d6 ^^ G.d7
  p1 := G.d3 ^^ G.d5 ^^ G.d7

/-- The triple procedure of R71: `<p4, p2, p1>` from the recorded codes of the data bits equal to 1. -/
def parityTriple (G : DataGroup) : Triple :=
  record (record (record (record ⟨false, false, false⟩ 7 G.d7) 6 G.d6) 5 G.d5) 3 G.d3

/-- ENCODE's result: pad4, then the codeword of each group in order (R73, R74). -/
def encodeBits (S : Bits) : Bits :=
  (groupWindows (padTo 4 S)).flatMap fun G => (enc4 G).toBits

/-- `ENCODE S` (R73). -/
def execEncode (S : Bits) (s : State) : Host.Outcome State Fault Refusal :=
  respond (.bits S) (.bits (encodeBits S)) s s

end Sys2Proof.Machine
end

