-- ==== Sys2Proof/Machine/Noise.lean ====
section
/-! DEFINITION. The NoiseInjector: INJECT (R80 to R85), the one operation that reads and writes the block's state. -/

namespace Sys2Proof.Machine

/-- The fixed sentinel, 4 (R82). -/
def sentinel : Draw := 4

/-- One codeword: a first draw; if it is the sentinel, a second draw names the array index to negate (R82, R83). -/
def injectWord (rs : RSState) (C : Codeword) : Codeword × RSState :=
  let first := draw rs
  if first.1 = sentinel then
    let second := draw first.2
    (flipAt C second.1, second.2)
  else (C, first.2)

/-- The codewords in ascending order, the source carried from one to the next (R85). -/
def injectWords (rs : RSState) : List Codeword → List Codeword × RSState
  | [] => ([], rs)
  | C :: later =>
    let here := injectWord rs C
    let there := injectWords here.2 later
    (here.1 :: there.1, there.2)

/-- INJECT's result and the source after it: the codewords, then the trailing bits unmodified (R80, R81, R84). -/
def injectBits (rs : RSState) (S : Bits) : Bits × RSState :=
  let done := injectWords rs (wordWindows S)
  (done.1.flatMap Codeword.toBits ++ remainder 7 S, done.2)

/-- `INJECT S` (R81): seed if this is the first use (R17), then draw and flip codeword by codeword. -/
def execInject (S : Bits) (s : State) : Host.Outcome State Fault Refusal :=
  let ready := s.seedSource
  let done := injectBits ready.block.rs S
  respond (.bits S) (.bits done.1) s (ready.withSource done.2)

end Sys2Proof.Machine
end

