-- ==== Sys2Proof/Machine/Dispatch.lean ====
section
/-! DEFINITION. One arm for each operation of spec/opcode_table.json. -/

namespace Sys2Proof.Machine

def exec (i : Instr) (s : State) : Host.Outcome State Fault Refusal :=
  match i with
  | .unpack B => Sys2Proof.Machine.execUnpack B s
  | .pack pad S => Sys2Proof.Machine.execPack pad S s
  | .encode S => Sys2Proof.Machine.execEncode S s
  | .inject S => Sys2Proof.Machine.execInject S s
  | .syndrome C => Sys2Proof.Machine.execSyndrome C s
  | .decode S => Sys2Proof.Machine.execDecode S s

end Sys2Proof.Machine
end

