-- ==== Sys2Proof/Machine/Transaction.lean ====
section
/-! DEFINITION. One interaction of the host with the block (R154): a reset, or a request and its response. -/

namespace Sys2Proof.Machine

/-- A request: the decoded operation runs and its response is recorded; an ill-formed request has no effect and "no
response" is recorded, after which the run goes on (R53, R122, R155). Log entry 3. -/
def serve (r : Request) (s : State) : Host.Outcome State Fault Refusal :=
  match decodeRequest r with
  | .error _ => .next s.noResponse
  | .ok i =>
    match exec i s with
    | .refused (.illFormed _) => .next s.noResponse
    | outcome => outcome

/-- One action of the host (R154). -/
def perform (a : HostAction) (s : State) : Host.Outcome State Fault Refusal :=
  match a with
  | .reset => .next s.hostReset
  | .request r => serve r s

/-- The host's next action, whole (R6, R31, R33): it is taken from the list and performed. With none pending the block
is idle and nothing changes (R133, log entry 2). -/
def advance (s : State) : Host.Outcome State Fault Refusal :=
  match s.pending with
  | [] => .next s
  | a :: later => perform a { s with pending := later }

end Sys2Proof.Machine
end

