-- ==== Sys2Proof/Machine/Step.lean ====
section
/-! DEFINITION. One step, and the placing of an opcode-table word as the host's next request. -/

namespace Sys2Proof.Machine

/-- One step: the host's next action (R6, R154). -/
def step (s : State) : Host.Outcome State Fault Refusal :=
  advance s

/-- The opcode table's word `w`, with an operand of zeros, as the host's next request (log entries 1 and 10). -/
def State.withFetchWord (s : State) (nbits w : Nat) : State :=
  match tableRequest nbits w with
  | some r => { s with pending := .request r :: s.pending }
  | none => s

end Sys2Proof.Machine
end

