-- ==== Sys2Proof/Machine/Pipelines.lean ====
section
/-! DEFINITION. The three pseudo-instructions (R110 to R113): the host's macros, each a fixed list of requests that
the host issues one after another, every request with the result before it as its operand. The block holds nothing of
them. -/

namespace Sys2Proof.Machine

/-- The host issues one request, waits for the step and takes its response (R154); none if there is no response. -/
def issue (ctl : BitVec 4) (x : Payload) (s : State) : Option (Payload × State) :=
  match step { s with pending := .request ⟨ctl, x⟩ :: s.pending } with
  | .next t =>
    match t.observed.getLast? with
    | some (some r) => some (r.result, t)
    | _ => none
  | _ => none

/-- Three requests, each on the result of the one before; none if one of them has no response. -/
def issue3 (c1 c2 c3 : BitVec 4) (x : Payload) (s : State) : Option (Payload × State) :=
  (issue c1 x s).bind fun a => (issue c2 a.1 a.2).bind fun b => issue c3 b.1 b.2

/-- `ENCODE_FILE B`: UNPACK, ENCODE, PACK pad=1 (R111). -/
def encodeFile (B : Bytes) (s : State) : Option (Payload × State) :=
  issue3 0x0#4 0x2#4 0x9#4 (.bytes B) s

/-- `DECODE_FILE F`: UNPACK, DECODE, PACK pad=1 (R112). -/
def decodeFile (F : Bytes) (s : State) : Option (Payload × State) :=
  issue3 0x0#4 0x5#4 0x9#4 (.bytes F) s

/-- `NOISE_FILE F`: UNPACK, INJECT, PACK pad=1 (R113). -/
def noiseFile (F : Bytes) (s : State) : Option (Payload × State) :=
  issue3 0x0#4 0x3#4 0x9#4 (.bytes F) s

end Sys2Proof.Machine
end

