-- ==== Sys2Proof/Safety.lean ====
section
/-! DEFINITION. The terms claims are stated in: what a pure operation answers, what an ill-formed request is in the words
of R53, the draws of a codeword, a run's invariant, and the host's duties that the block does not check. -/

namespace Sys2Proof

open Machine

/-- The step from `s` stops neither with a fault nor with a refusal. -/
def StepAnswers (s : State) : Prop :=
  ∃ t, step s = .next t

/-- Operation `i` on state `s` completes with result `y`: one response is recorded and nothing else of the state
changes. -/
def Answers (i : Instr) (s : State) (y : Payload) : Prop :=
  exec i s = .next { s with observed := s.observed ++ [some { result := y }] }

/-- The result length R52 gives a request, from its `op`, its `pad` and its operand's length. -/
def requestResultLength (r : Request) : Nat :=
  match r.op with
  | 0 => 8 * r.operand.length
  | 1 => if r.pad then (r.operand.length + 7) / 8 else r.operand.length / 8
  | 2 => 7 * ((r.operand.length + 3) / 4)
  | 3 => r.operand.length
  | 4 => 3
  | _ => 4 * (r.operand.length / 7)

/-- The definition of an ill-formed request, clause by clause (R53). -/
def RequestIllFormed (maxLen : Option Nat) (r : Request) : Prop :=
  6 ≤ r.op ∨
    (r.op = 0 ∧ ∃ S, r.operand = .bits S) ∨
    (r.op ≠ 0 ∧ ∃ B, r.operand = .bytes B) ∨
    (r.op = 4 ∧ r.operand.length ≠ 7) ∨
    ∃ m, maxLen = some m ∧ (m < r.operand.length ∨ m < requestResultLength r)

/-- The draws one codeword takes: a first, and a second only if the first is 4 (R82, R83). -/
def wordDraws (w : Draw × Draw) : List Draw :=
  if w.1 = 4 then [w.1, w.2] else [w.1]

/-- `T` differs from `S` in at most one array index of each whole 7-bit word of `S`, and has its length: the host's
duty between ENCODE and DECODE (R146), and what one INJECT can do to whole words (R87). -/
def AtMostOneErrorPerWord (S T : Bits) : Prop :=
  T.length = S.length ∧
    ∀ k i j, k < S.length / 7 → i < 7 → j < 7 →
      T[7 * k + i]? ≠ S[7 * k + i]? → T[7 * k + j]? ≠ S[7 * k + j]? → i = j

/-- The trailing bits beyond the last whole word are the same (R84). -/
def SameTrailingBits (S T : Bits) : Prop :=
  ∀ i, 7 * (S.length / 7) ≤ i → T[i]? = S[i]?

/-- Host duty for `PACK pad=0`: only on a length that is a multiple of 8 (R144). -/
def PackDutyKept (pad : Bit) (S : Bits) : Prop :=
  pad = true ∨ S.length % 8 = 0

/-- How many of the host's actions are requests: one entry of the observation each (R155). -/
def requestCount : List HostAction → Nat
  | [] => 0
  | .reset :: later => requestCount later
  | .request _ :: later => requestCount later + 1

/-- A run in which `n` requests are issued in all: each has had its entry of the observation or is still to come, and
no response recorded is longer than MAXLEN (R37, R155). -/
def RunInvariant (n : Nat) (s : State) : Prop :=
  s.observed.length + requestCount s.pending = n ∧
    ∀ y, some { result := y } ∈ s.observed → fits s.maxLen y.length = true

end Sys2Proof
end

