-- ==== Sys2Proof/Certificates/Slice0/Obligations.lean ====
section
/-! DEFINITION. The statements for the provers. -/

open Sys2Proof Sys2Proof.Machine

/-! ### Requests: decoding, encoding, refusal -/

/-- Control words written out from R51's table, with both values of `ctl[3]` where it is ignored, decode to their
operations; the reserved words are refused (95_test_vectors.md section 2.8). -/
def Obligations.ControlWordsDecode : Prop :=
  decodeRequest ⟨0b0000#4, .bytes [0xA5#8]⟩ = .ok (.unpack [0xA5#8]) ∧
  decodeRequest ⟨0b1000#4, .bytes [0xA5#8]⟩ = .ok (.unpack [0xA5#8]) ∧
  decodeRequest ⟨0b0001#4, .bits [true, false, true]⟩ = .ok (.pack false [true, false, true]) ∧
  decodeRequest ⟨0b1001#4, .bits [true, false, true]⟩ = .ok (.pack true [true, false, true]) ∧
  decodeRequest ⟨0b1010#4, .bits [true]⟩ = .ok (.encode [true]) ∧
  decodeRequest ⟨0b0011#4, .bits []⟩ = .ok (.inject []) ∧
  decodeRequest ⟨0b0100#4, .bits [true, false, true, false, false, true, false]⟩ =
    .ok (.syndrome ⟨true, false, true, false, false, true, false⟩) ∧
  decodeRequest ⟨0b0101#4, .bits [true]⟩ = .ok (.decode [true]) ∧
  decodeRequest ⟨0b0110#4, .bits []⟩ = .error .reservedOp ∧
  decodeRequest ⟨0b1111#4, .bytes []⟩ = .error .reservedOp

/-- Decode and encode agree, both ways: every operation, with every operand, is read back from its request; and a
request that is read as an operation is that operation's request, but for `ctl[3]` where R49 ignores it (R49, R51,
R52; that the encoder writes 0 there is log entry 9). -/
def Obligations.DecodeAndEncodeAgree : Prop :=
  (∀ i, decodeRequest (encodeRequest i) = .ok i) ∧
  ∀ r i, decodeRequest r = .ok i →
    encodeRequest i = ⟨if r.op = 1 then r.ctl else r.ctl &&& 0b0111#4, r.operand⟩

/-- R122 with the ill-formed requests of R53 (the spec's decision D4): no step of the block, no state change, no response; the run
goes on with "no response" recorded (R155, log entry 3). -/
def Obligations.IllFormedRequestHasNoEffect : Prop :=
  ∀ (s : State) r later, s.pending = .request r :: later → RequestIllFormed s.maxLen r →
    step s = .next { s with pending := later, observed := s.observed ++ [none] }

/-- R120: "Every well-formed request therefore has a step and a result", of the type and length of R52
(the request format is the spec's decision D2 to D4, D11). -/
def Obligations.WellFormedRequestIsServed : Prop :=
  ∀ (s : State) r later, s.pending = .request r :: later → ¬ RequestIllFormed s.maxLen r →
    ∃ t y, step s = .next t ∧ t.pending = later ∧ t.observed = s.observed ++ [some { result := y }] ∧
      y.length = requestResultLength r ∧ (r.op = 1 ↔ ∃ B, y = .bytes B)

/-- An operation completes exactly when operand and result are within MAXLEN by R52's length laws. -/
def Obligations.CompletesExactlyWhenWellFormed : Prop :=
  ∀ i (s : State), (∃ t, exec i s = .next t) ↔ i.WellFormed s.maxLen

/-- Where an operation stops (R37, R53): by name, the operand looked at first (log entry 11). -/
def Obligations.OverlongIsRefusedByName : Prop :=
  ∀ i (s : State) m, s.maxLen = some m →
    (m < i.operandLength → exec i s = .refused (.illFormed .operandTooLong)) ∧
    (i.operandLength ≤ m ∧ m < i.resultLength → exec i s = .refused (.illFormed .resultTooLong))

/-! ### Steps and runs -/

/-- A step runs the decoded operation: with a request at the head of the host's list, the step is `exec` of the decoded
operation on the state without that request; where `exec` refuses, "no response" is recorded (log entry 3). -/
def Obligations.StepRunsDecodedRequest : Prop :=
  ∀ (s : State) r later i, s.pending = .request r :: later → decodeRequest r = .ok i →
    (∀ t, exec i { s with pending := later } = .next t → step s = .next t) ∧
    (∀ why, exec i { s with pending := later } = .refused why →
      step s = .next { s with pending := later, observed := s.observed ++ [none] })

/-- Nothing pending: the block is idle and holds its state (R133; the step is log entry 2). -/
def Obligations.IdleStepKeepsState : Prop :=
  ∀ s : State, s.pending = [] → step s = .next s

/-- Reset leaves `seeded = 0` (R18, R140, the spec's decision D16), at power-on and when the host orders it, which changes only the block
(what it leaves in `rs` is log entries 6 and 7, and nothing is said of it). -/
def Obligations.ResetLeavesUnseeded : Prop :=
  State.reset.block.seeded = false ∧
  ∀ (s : State) later, s.pending = .reset :: later →
    ∃ rs, step s = .next { s with block := ⟨false, rs⟩, fresh := s.fresh + 1, pending := later }

/-- "Reset is the only way seeded returns to 0; no operation clears it" (R140, the spec's decision D16), and a seeded
source is never seeded again before a reset (R143): no free source is taken (log entry 5). -/
def Obligations.SeededUntilReset : Prop :=
  ∀ s t : State, step s = .next t → s.block.seeded = true →
    (∃ later, s.pending = .reset :: later) ∨ (t.block.seeded = true ∧ t.fresh = s.fresh)

/-- R15, R17: `seeded` and `rs` are changed only by INJECT and by reset (the spec's decision D6). -/
def Obligations.OnlyInjectAndResetTouchBlock : Prop :=
  ∀ s t : State, step s = .next t → t.block ≠ s.block →
    (∃ later, s.pending = .reset :: later) ∨ ∃ r later, s.pending = .request r :: later ∧ r.op = 3

/-- Every step answers a next state: nothing faults, nothing stops. For a well-formed request this is R120, and R151
(the spec's own inference). Two cases are the model's: on an ill-formed request the run goes on with "no response", the
model's reading of R155 beside R122, by which the block takes no step (log entry 3, DEDUCED, unsafe); and with nothing
pending the step changes nothing (log entry 2, DESIGN CHOICE). -/
def Obligations.EveryStepAnswers : Prop :=
  ∀ s : State, StepAnswers s

/-- What every step leaves alone: MAXLEN, and the observation already made, to which it adds at most one entry; it
takes exactly the first pending action (R155; the two lists are log entry 1, a step with nothing pending log entry 2, a
step on a refused request log entry 3). -/
def Obligations.StepFrame : Prop :=
  ∀ s t : State, step s = .next t →
    t.maxLen = s.maxLen ∧ t.pending = s.pending.tail ∧
      ∃ new, t.observed = s.observed ++ new ∧ new.length ≤ 1

/-- R155 (the spec's decision D25): every run ends, with one entry of the observation for each request. The list of
pending actions is log entry 1; that the run goes on after a refused request is log entry 3 (DEDUCED, unsafe). -/
def Obligations.EveryRunEnds : Prop :=
  ∀ s : State, ∃ t, Sys2Proof.core.run s.pending.length s = .next t ∧ t.pending = [] ∧
    t.observed.length = s.observed.length + requestCount s.pending

/-- Every step keeps the run's invariant (R37, R155; the two lists are log entry 1, a step with nothing pending log entry
2, the entry of a refused request log entry 3). -/
def Obligations.StepKeepsRunInvariant : Prop :=
  ∀ n (s t : State), RunInvariant n s → step s = .next t → RunInvariant n t

/-- The run's invariant holds right after reset, with nothing issued. -/
def Obligations.RunInvariantAtReset : Prop :=
  RunInvariant 0 State.reset

/-- R32, R8: an operation other than INJECT has one result, the same in every state, and changes nothing of the state
but the observation. -/
def Obligations.PureOperationsIgnoreState : Prop :=
  ∀ i, (∀ S, i ≠ .inject S) → ∃ y, ∀ s : State, i.WellFormed s.maxLen → Answers i s y

/-! ### BitPacker -/

/-- R61: `out[8*j + i] = bits[7-i:7-i] of B[j]`. -/
def Obligations.UnpackResult : Prop :=
  ∀ B (s : State), fits s.maxLen (8 * B.length) = true →
    ∃ T, Answers (.unpack B) s (.bits T) ∧ T.length = 8 * B.length ∧
      ∀ j i, (hj : j < B.length) → i ≤ 7 → T[8 * j + i]? = some (B[j].getLsbD (7 - i))

/-- R63: both values of `pad`. Bit `7 - i` of byte `j` is bit `8*j + i` of the operand, and 0 beyond its end. -/
def Obligations.PackResult : Prop :=
  ∀ pad S (s : State), fits s.maxLen S.length = true →
    ∃ B, Answers (.pack pad S) s (.bytes B) ∧
      B.length = (if pad then (S.length + 7) / 8 else S.length / 8) ∧
      ∀ j i, (hj : j < B.length) → i ≤ 7 → B[j].getLsbD (7 - i) = S.getD (8 * j + i) false

/-- R66 (in part the spec's own inference): UNPACK and PACK are inverse as far as whole bytes go. -/
def Obligations.PackUnpackInverse : Prop :=
  (∀ pad B (s : State), fits s.maxLen (8 * B.length) = true →
    ∃ T, Answers (.unpack B) s (.bits T) ∧ Answers (.pack pad T) s (.bytes B)) ∧
  ∀ pad S (s : State), fits s.maxLen (8 * ((S.length + 7) / 8)) = true →
    ∃ B, Answers (.pack pad S) s (.bytes B) ∧
      Answers (.unpack B) s (.bits
        (if pad then S ++ List.replicate ((8 - S.length % 8) % 8) false else S.take (8 * (S.length / 8))))

/-- R144: PACK keeps every bit of its operand exactly when the host keeps its duty. -/
def Obligations.PackLosesBitsOnlyOffDuty : Prop :=
  ∀ pad S (s : State), fits s.maxLen (8 * ((S.length + 7) / 8)) = true →
    ∃ B T, Answers (.pack pad S) s (.bytes B) ∧ Answers (.unpack B) s (.bits T) ∧
      (T.take S.length = S ↔ PackDutyKept pad S)

/-! ### HammingEncoder -/

/-- R73 with R70, R72, R74: codeword `k` of the result, element by element. -/
def Obligations.EncodeResult : Prop :=
  ∀ S (s : State), fits s.maxLen (7 * ((S.length + 3) / 4)) = true →
    ∃ T, Answers (.encode S) s (.bits T) ∧ T.length = 7 * ((S.length + 3) / 4) ∧
      ∀ k, k < (S.length + 3) / 4 →
        let d7 := S.getD (4 * k) false
        let d6 := S.getD (4 * k + 1) false
        let d5 := S.getD (4 * k + 2) false
        let d3 := S.getD (4 * k + 3) false
        (T.drop (7 * k)).take 7 = [d7, d6, d5, d5 ^^ d6 ^^ d7, d3, d3 ^^ d6 ^^ d7, d3 ^^ d5 ^^ d7]

/-- The triple procedure computes the parity bits of R70, slot 0 being p4, slot 1 p2 and slot 2 p1: the spec's own
inferences, the agreement in R71 and the slots in R45 (91_not_in_source.md N13: the source does not name them). -/
def Obligations.TripleProcedureAgrees : Prop :=
  ∀ G : DataGroup, parityTriple G =
    ⟨G.d5 ^^ G.d6 ^^ G.d7, G.d3 ^^ G.d6 ^^ G.d7, G.d3 ^^ G.d5 ^^ G.d7⟩

/-- R76: every codeword of an ENCODE result has its three parity checks even and syndrome 0. -/
def Obligations.EncodedWordsAreValid : Prop :=
  ∀ S (s : State), fits s.maxLen (7 * ((S.length + 3) / 4)) = true →
    ∃ T, Answers (.encode S) s (.bits T) ∧
      ∀ k C, k < (S.length + 3) / 4 → C.toBits = (T.drop (7 * k)).take 7 →
        (C.p1 ^^ C.d3 ^^ C.d5 ^^ C.d7) = false ∧ (C.p2 ^^ C.d3 ^^ C.d6 ^^ C.d7) = false ∧
        (C.p4 ^^ C.d5 ^^ C.d6 ^^ C.d7) = false ∧
        Answers (.syndrome C) s (.bits [false, false, false])

/-- R77 (the spec's own inference): ENCODE distributes over concatenation at a multiple of 4. -/
def Obligations.EncodeActsGroupByGroup : Prop :=
  ∀ S1 S2 (s : State), S1.length % 4 = 0 → fits s.maxLen (7 * ((S1.length + S2.length + 3) / 4)) = true →
    ∃ T1 T2, Answers (.encode S1) s (.bits T1) ∧ Answers (.encode S2) s (.bits T2) ∧
      Answers (.encode (S1 ++ S2)) s (.bits (T1 ++ T2))

/-! ### NoiseInjector -/

/-- R81 to R85, on a seeded source whose next draws are known: codeword `k` takes the draws of `ws[k]`, in order, the
sentinel 4 negates the bit the second draw names, the trailing bits pass, and the later draws stay queued.
The index and the order are the spec's decisions D9 and D10; the queue is log entry 4. -/
def Obligations.InjectFollowsItsDraws : Prop :=
  ∀ S (s : State) (ws : List (Draw × Draw)) later,
    s.block.seeded = true → ws.length = S.length / 7 → s.block.rs.queued = ws.flatMap wordDraws ++ later →
    fits s.maxLen S.length = true →
    ∃ T, exec (.inject S) s = .next { s with
        block := ⟨true, { s.block.rs with queued := later }⟩, observed := s.observed ++ [some { result := .bits T }] } ∧
      T.length = S.length ∧ SameTrailingBits S T ∧
      ∀ k i, (hk : k < ws.length) → i < 7 →
        T[7 * k + i]? = if ws[k].1 = 4 ∧ ws[k].2.val = i then S[7 * k + i]?.map (!·) else S[7 * k + i]?

/-- R17, R143: the first INJECT after a reset runs as on a seeded block whose source is free; it seeds even when it
makes no draw (the spec's decision D8; log entry 5). -/
def Obligations.FirstInjectSeeds : Prop :=
  ∀ S (s : State), s.block.seeded = false → fits s.maxLen S.length = true →
    exec (.inject S) s =
      exec (.inject S) { s with block := ⟨true, Config.freeSource s.fresh⟩, fresh := s.fresh + 1 } ∧
    (S.length < 7 → exec (.inject S) s = .next { s with
      block := ⟨true, Config.freeSource s.fresh⟩, fresh := s.fresh + 1,
      observed := s.observed ++ [some { result := .bits S }] })

/-- INJECT in every state: it completes, is seeded after it, changes nothing else but the source and the observation
(and the count of free sources, only when it seeds), and whatever was drawn the result has the shape of R87.
That every INJECT leaves the block seeded is R17 and R81, by the spec's decision D8; the count `fresh` is the model's own
field (log entry 5); the trailing bits are R84; the shape and the length are R87 and R88, the spec's own inferences. -/
def Obligations.InjectCompletes : Prop :=
  ∀ S (s : State), fits s.maxLen S.length = true →
    ∃ T rs, exec (.inject S) s = .next { s with
        block := ⟨true, rs⟩, fresh := if s.block.seeded then s.fresh else s.fresh + 1,
        observed := s.observed ++ [some { result := .bits T }] } ∧
      AtMostOneErrorPerWord S T ∧ SameTrailingBits S T

/-- R87 the other way, with R16 (the spec's inference and decision D7; log entry 4): every sequence of that shape is the result of some draws. -/
def Obligations.EveryAllowedNoiseIsPossible : Prop :=
  ∀ S T, AtMostOneErrorPerWord S T → SameTrailingBits S T →
    ∃ rs, ∀ s : State, s.block = ⟨true, rs⟩ → fits s.maxLen S.length = true →
      ∃ t, exec (.inject S) s = .next t ∧ t.observed = s.observed ++ [some { result := .bits T }]

/-! ### Syndrome calculator and HammingDecoder -/

/-- R92 with R91 and R47 (the interface is the spec's decision D11): `<s4, s2, s1>`. -/
def Obligations.SyndromeResult : Prop :=
  ∀ C (s : State), fits s.maxLen 7 = true →
    Answers (.syndrome C) s (.bits
      [C.d7 ^^ C.d6 ^^ C.d5 ^^ C.p4, C.d7 ^^ C.d6 ^^ C.d3 ^^ C.p2, C.d7 ^^ C.d5 ^^ C.d3 ^^ C.p1])

/-- R91 (the spec's own inference from R90): the procedure computes the closed form, and it is linear over exclusive
or. -/
def Obligations.SyndromeClosedFormAndLinear : Prop :=
  (∀ C, synd7 C = ⟨C.d7 ^^ C.d6 ^^ C.d5 ^^ C.p4, C.d7 ^^ C.d6 ^^ C.d3 ^^ C.p2, C.d7 ^^ C.d5 ^^ C.d3 ^^ C.p1⟩) ∧
  ∀ C E : Codeword,
    synd7 ⟨C.d7 ^^ E.d7, C.d6 ^^ E.d6, C.d5 ^^ E.d5, C.p4 ^^ E.p4, C.d3 ^^ E.d3, C.p2 ^^ E.p2, C.p1 ^^ E.p1⟩ =
      xorSlots (synd7 C) (synd7 E)

/-- R93 (a) to (c) (the spec's own inference): 0 exactly on valid codewords; on a single negated bit its Hamming position; and every word is a
valid codeword or one flip from exactly one. -/
def Obligations.SyndromeNamesThePosition : Prop :=
  (∀ C, syndInt C = 0 ↔ validCodeword C = true) ∧
  (∀ C i, validCodeword C = true → syndInt (flipAt C i) = 7 - i.val) ∧
  ∀ C, ∃ V, validCodeword V = true ∧ (C = V ∨ ∃ i, C = flipAt V i) ∧
    ∀ W, validCodeword W = true → (C = W ∨ ∃ i, C = flipAt W i) → W = V

/-- R97 with R94, R95, R98: DataGroup `k` of the result, bit by bit. Index 0, 1, 2 or 4 is negated when the syndrome is
7, 6, 5 or 3. -/
def Obligations.DecodeResult : Prop :=
  ∀ S (s : State), fits s.maxLen S.length = true →
    ∃ T, Answers (.decode S) s (.bits T) ∧ T.length = 4 * (S.length / 7) ∧
      ∀ k, k < S.length / 7 →
        let c := fun i => S.getD (7 * k + i) false
        let s4 := c 0 ^^ c 1 ^^ c 2 ^^ c 3
        let s2 := c 0 ^^ c 1 ^^ c 4 ^^ c 5
        let s1 := c 0 ^^ c 2 ^^ c 4 ^^ c 6
        (T.drop (4 * k)).take 4 =
          [c 0 ^^ (s4 && s2 && s1), c 1 ^^ (s4 && s2 && !s1), c 2 ^^ (s4 && !s2 && s1), c 4 ^^ (!s4 && s2 && s1)]

/-- R97 (the spec's own inference in it): DECODE distributes over concatenation at a multiple of 7. -/
def Obligations.DecodeActsWordByWord : Prop :=
  ∀ S1 S2 (s : State), S1.length % 7 = 0 → fits s.maxLen (S1.length + S2.length) = true →
    ∃ T1 T2, Answers (.decode S1) s (.bits T1) ∧ Answers (.decode S2) s (.bits T2) ∧
      Answers (.decode (S1 ++ S2)) s (.bits (T1 ++ T2))

/-- R100: for every valid codeword and every array index, negating that bit and correcting yields the codeword back,
and DECODE emits its four data bits. -/
def Obligations.SingleErrorIsCorrected : Prop :=
  ∀ C i (s : State), validCodeword C = true → fits s.maxLen 7 = true →
    correct7 (flipAt C i) = C ∧
    Answers (.decode (flipAt C i).toBits) s (.bits [C.d7, C.d6, C.d5, C.d3])

/-- R102: with exactly two bits in error the syndrome is never 0 and the word is changed to a wrong valid codeword
(the spec's own inference). -/
def Obligations.DoubleErrorIsMiscorrected : Prop :=
  ∀ C i j, validCodeword C = true → i ≠ j →
    syndInt (flipAt (flipAt C i) j) ≠ 0 ∧ correct7 (flipAt (flipAt C i) j) ≠ C ∧
    validCodeword (correct7 (flipAt (flipAt C i) j)) = true

/-- R101 (the spec's own inference; 90_conflicts.md C1): with no error, nothing is changed, and
`DECODE (ENCODE S) = pad_to(S, 4)`. -/
def Obligations.DecodeUndoesEncode : Prop :=
  (∀ C, validCodeword C = true → syndInt C = 0 ∧ correct7 C = C ∧ dec7 C = extract4 C) ∧
  (∀ G, dec7 (enc4 G) = G) ∧
  ∀ S (s : State), fits s.maxLen (7 * ((S.length + 3) / 4)) = true →
    ∃ T, Answers (.encode S) s (.bits T) ∧
      Answers (.decode T) s (.bits (S ++ List.replicate ((4 - S.length % 4) % 4) false))

/-- R146: with at most one bit per codeword in error between ENCODE and DECODE, wherever it is, the data come back. -/
def Obligations.DecodeCorrectsOneErrorPerWord : Prop :=
  ∀ S (s : State), fits s.maxLen (7 * ((S.length + 3) / 4)) = true →
    ∃ T, Answers (.encode S) s (.bits T) ∧ ∀ U, AtMostOneErrorPerWord T U →
      Answers (.decode U) s (.bits (S ++ List.replicate ((4 - S.length % 4) % 4) false))

/-! ### Pipelines -/

/-- R111, R114 (the spec's own inferences, with decision D12): ENCODE_FILE of `n` bytes is a file of `ceil_div(7n, 4)` bytes and leaves the block as it was. -/
def Obligations.EncodeFileSize : Prop :=
  ∀ B (s : State), fits s.maxLen (14 * B.length) = true →
    ∃ F t, encodeFile B s = some (.bytes F, t) ∧ F.length = (7 * B.length + 3) / 4 ∧
      t.block = s.block ∧ t.pending = s.pending

/-- R115 (the spec's own inference, with decision D12): `DECODE_FILE (ENCODE_FILE B) = B` exactly. -/
def Obligations.FileRoundTrip : Prop :=
  ∀ B (s : State), fits s.maxLen (8 * ((7 * B.length + 3) / 4)) = true →
    ∃ F t u, encodeFile B s = some (.bytes F, t) ∧ decodeFile F t = some (.bytes B, u)

/-- R116 (the spec's own inference, with decision D12): `DECODE_FILE (NOISE_FILE (ENCODE_FILE B)) = B`, whatever is
drawn. -/
def Obligations.NoisyFileRoundTrip : Prop :=
  ∀ B (s : State), fits s.maxLen (8 * ((7 * B.length + 3) / 4)) = true →
    ∃ F N t u v, encodeFile B s = some (.bytes F, t) ∧ noiseFile F t = some (.bytes N, u) ∧
      decodeFile N u = some (.bytes B, v)

/-- R150 (the spec's own inference): the zeros of `PACK pad=1` make an extra DataGroup `0000` exactly when the codeword count is 7 modulo 8. -/
def Obligations.PadBitsMakeAnExtraGroup : Prop :=
  ∀ S (s : State), fits s.maxLen (8 * ((7 * ((S.length + 3) / 4) + 7) / 8)) = true →
    ∃ T B U, Answers (.encode S) s (.bits T) ∧ Answers (.pack true T) s (.bytes B) ∧
      Answers (.unpack B) s (.bits U) ∧
      Answers (.decode U) s (.bits
        (S ++ List.replicate ((4 - S.length % 4) % 4) false ++
          if (S.length + 3) / 4 % 8 = 7 then [false, false, false, false] else []))
end

