-- ==== Sys2Proof/Laws/State.lean ====
section
/-! SUPPORT. What each named update of the state does to each field, one lemma per field per update, all by rfl. -/

namespace Sys2Proof.Machine

@[simp] theorem State.reply_block (s : State) (y : Payload) : (s.reply y).block = s.block := rfl
@[simp] theorem State.reply_maxLen (s : State) (y : Payload) : (s.reply y).maxLen = s.maxLen := rfl
@[simp] theorem State.reply_fresh (s : State) (y : Payload) : (s.reply y).fresh = s.fresh := rfl
@[simp] theorem State.reply_pending (s : State) (y : Payload) : (s.reply y).pending = s.pending := rfl
@[simp] theorem State.reply_observed (s : State) (y : Payload) :
    (s.reply y).observed = s.observed ++ [some ⟨y⟩] := rfl

@[simp] theorem State.noResponse_block (s : State) : s.noResponse.block = s.block := rfl
@[simp] theorem State.noResponse_maxLen (s : State) : s.noResponse.maxLen = s.maxLen := rfl
@[simp] theorem State.noResponse_fresh (s : State) : s.noResponse.fresh = s.fresh := rfl
@[simp] theorem State.noResponse_pending (s : State) : s.noResponse.pending = s.pending := rfl
@[simp] theorem State.noResponse_observed (s : State) : s.noResponse.observed = s.observed ++ [none] := rfl

@[simp] theorem State.withSource_seeded (s : State) (rs : RSState) :
    (s.withSource rs).block.seeded = s.block.seeded := rfl
@[simp] theorem State.withSource_rs (s : State) (rs : RSState) : (s.withSource rs).block.rs = rs := rfl
@[simp] theorem State.withSource_maxLen (s : State) (rs : RSState) : (s.withSource rs).maxLen = s.maxLen := rfl
@[simp] theorem State.withSource_fresh (s : State) (rs : RSState) : (s.withSource rs).fresh = s.fresh := rfl
@[simp] theorem State.withSource_pending (s : State) (rs : RSState) : (s.withSource rs).pending = s.pending := rfl
@[simp] theorem State.withSource_observed (s : State) (rs : RSState) : (s.withSource rs).observed = s.observed := rfl

@[simp] theorem State.hostReset_seeded (s : State) : s.hostReset.block.seeded = false := rfl
@[simp] theorem State.hostReset_maxLen (s : State) : s.hostReset.maxLen = s.maxLen := rfl
@[simp] theorem State.hostReset_fresh (s : State) : s.hostReset.fresh = s.fresh + 1 := rfl
@[simp] theorem State.hostReset_pending (s : State) : s.hostReset.pending = s.pending := rfl
@[simp] theorem State.hostReset_observed (s : State) : s.hostReset.observed = s.observed := rfl

@[simp] theorem State.seedSource_seeded (s : State) : s.seedSource.block.seeded = true := by
  unfold State.seedSource; split <;> simp_all
@[simp] theorem State.seedSource_maxLen (s : State) : s.seedSource.maxLen = s.maxLen := by
  unfold State.seedSource; split <;> rfl
@[simp] theorem State.seedSource_pending (s : State) : s.seedSource.pending = s.pending := by
  unfold State.seedSource; split <;> rfl
@[simp] theorem State.seedSource_observed (s : State) : s.seedSource.observed = s.observed := by
  unfold State.seedSource; split <;> rfl

/-- A seeded source is not seeded again (R143). -/
theorem State.seedSource_of_seeded {s : State} (h : s.block.seeded = true) : s.seedSource = s := by
  simp [State.seedSource, h]

/-- First use: the free source, and the next free one is another (R17). -/
theorem State.seedSource_of_unseeded {s : State} (h : s.block.seeded = false) :
    s.seedSource = { s with block := ⟨true, Config.freeSource s.fresh⟩, fresh := s.fresh + 1 } := by
  simp [State.seedSource, h]

end Sys2Proof.Machine
end

