-- ==== Sys2Proof/Laws/Ops.lean ====
section
/-! SUPPORT. For each shared operation, everything it can do, said once. -/

namespace Sys2Proof.Machine

theorem fits_iff {maxLen : Option Nat} {n : Nat} : fits maxLen n = true ↔ ∀ m, maxLen = some m → n ≤ m := by
  cases maxLen <;> simp [fits]

/-- A shorter sequence fits where a longer one does. -/
theorem fits_mono {maxLen : Option Nat} {a b : Nat} (hab : a ≤ b) (h : fits maxLen b = true) :
    fits maxLen a = true :=
  fits_iff.2 fun m hm => hab.trans (fits_iff.1 h m hm)

/-- Operand and result fit: the response is recorded on the state the effect leaves. -/
theorem respond_next {x y : Payload} {s t : State} (hx : fits s.maxLen x.length = true)
    (hy : fits s.maxLen y.length = true) : respond x y s t = .next (t.reply y) := by
  simp [respond, overlong, hx, hy]

/-- The three things `respond` can do. -/
theorem respond_cases (x y : Payload) (s t : State) :
    (fits s.maxLen x.length = true ∧ fits s.maxLen y.length = true ∧ respond x y s t = .next (t.reply y)) ∨
    (fits s.maxLen x.length = false ∧ respond x y s t = .refused (.illFormed .operandTooLong)) ∨
    (fits s.maxLen x.length = true ∧ fits s.maxLen y.length = false ∧
      respond x y s t = .refused (.illFormed .resultTooLong)) := by
  cases hx : fits s.maxLen x.length <;> cases hy : fits s.maxLen y.length <;>
    simp [respond, overlong, hx, hy]

/-- A queued draw is answered first. -/
@[simp] theorem draw_queued (r : Draw) (later : List Draw) (n : Nat) :
    draw ⟨r :: later, n⟩ = (r, ⟨later, n⟩) := rfl

/-- With none queued, the draw is free. -/
@[simp] theorem draw_free (n : Nat) : draw ⟨[], n⟩ = (Config.freeDraw n, ⟨[], n + 1⟩) := rfl

/-- `t` is `s`, or `s` after an INJECT has seeded the source if it was not and drawn from it. -/
def SourceMoved (i : Instr) (s t : State) : Prop :=
  t = s ∨ (∃ S, i = .inject S) ∧ t.block.seeded = true ∧ (s.block.seeded = true → t.fresh = s.fresh)

/-- Every operation ends in `respond`, on a state that differs from the one before at most in the random source,
which only INJECT touches. -/
theorem exec_eq_respond (i : Instr) (s : State) :
    ∃ x y t, exec i s = respond x y s t ∧ t.maxLen = s.maxLen ∧ t.pending = s.pending ∧
      t.observed = s.observed ∧ SourceMoved i s t := by
  cases i with
  | inject S => exact ⟨_, _, _, rfl, by simp, by simp, by simp,
      .inr ⟨⟨S, rfl⟩, by simp, fun h => by rw [State.seedSource_of_seeded h]; rfl⟩⟩
  | _ => exact ⟨_, _, s, rfl, rfl, rfl, rfl, .inl rfl⟩

/-- Everything one operation can do: record a response, or be refused for length. -/
theorem exec_cases (i : Instr) (s : State) :
    (∃ t y, exec i s = .next (State.reply t y) ∧ fits s.maxLen y.length = true ∧
      t.maxLen = s.maxLen ∧ t.pending = s.pending ∧ t.observed = s.observed ∧ SourceMoved i s t) ∨
    (∃ why, exec i s = .refused (.illFormed why)) := by
  obtain ⟨x, y, t, he, ht⟩ := exec_eq_respond i s
  rcases respond_cases x y s t with ⟨_, hy, h⟩ | ⟨_, h⟩ | ⟨_, _, h⟩
  · exact .inl ⟨t, y, he.trans h, hy, ht⟩
  · exact .inr ⟨_, he.trans h⟩
  · exact .inr ⟨_, he.trans h⟩

/-- An action with nothing before it is the next one performed. -/
theorem step_of_pending {s : State} {a : HostAction} {later : List HostAction} (h : s.pending = a :: later) :
    step s = perform a { s with pending := later } := by
  simp [step, advance, h]

/-- What serving a request can do: answer as its operation does, or record "no response" and nothing else. -/
theorem serve_cases (r : Request) (s : State) :
    (∃ i, decodeRequest r = .ok i ∧ ∃ t, exec i s = .next t ∧ serve r s = .next t) ∨
    serve r s = .next s.noResponse := by
  unfold serve
  cases hd : decodeRequest r with
  | error e => exact Or.inr rfl
  | ok i =>
    rcases exec_cases i s with ⟨t, y, he, -⟩ | ⟨why, he⟩
    · exact Or.inl ⟨i, rfl, _, he, by simp [he]⟩
    · exact Or.inr (by simp [he])

end Sys2Proof.Machine
end

