-- ==== Sys2Proof/Laws/PerInstr.lean ====
section
/-! SUPPORT. The family TableRow: what every operation's request says of its row of spec/opcode_table.json. -/

namespace Sys2Proof.Laws.TableRow

/-- The row's match value under its mask 0x7 (R51). -/
def opNumber : Instr → Nat
  | .unpack _ => 0
  | .pack _ _ => 1
  | .encode _ => 2
  | .inject _ => 3
  | .syndrome _ => 4
  | .decode _ => 5

/-- The request that spells the operation has the row's number and an operand of the length R52 gives. -/
def Statement (i : Instr) : Prop :=
  (encodeRequest i).op = opNumber i ∧ (encodeRequest i).operand.length = i.operandLength

theorem unpack (B : Bytes) : Statement (.unpack B) := ⟨rfl, rfl⟩

theorem pack (pad : Bit) (S : Bits) : Statement (.pack pad S) := by
  cases pad <;> exact ⟨by simp [encodeRequest, Request.op, opNumber], rfl⟩

theorem encode (S : Bits) : Statement (.encode S) := ⟨rfl, rfl⟩

theorem inject (S : Bits) : Statement (.inject S) := ⟨rfl, rfl⟩

theorem syndrome (C : Codeword) : Statement (.syndrome C) := ⟨rfl, rfl⟩

theorem decode (S : Bits) : Statement (.decode S) := ⟨rfl, rfl⟩

end Sys2Proof.Laws.TableRow
end

