-- ==== Sys2Proof/Laws/Pipelines.lean ====
section
/-! SUPPORT. What the host gets from one request it issues. -/

namespace Sys2Proof.Machine

/-- The request's operation answers: the host gets the response recorded last, and the state after the step. -/
theorem issue_next {ctl : BitVec 4} {x y : Payload} {s t : State} {i : Instr} (hd : decodeRequest ⟨ctl, x⟩ = .ok i)
    (he : exec i s = .next t) (ho : t.observed.getLast? = some (some ⟨y⟩)) : issue ctl x s = some (y, t) := by
  have h : step { s with pending := .request ⟨ctl, x⟩ :: s.pending } = .next t := by
    rw [step_of_pending rfl]
    simp only [perform, serve, hd]
    rw [he]
  simp [issue, h, ho]

/-- An operation that only records its response. -/
theorem issue_reply {ctl : BitVec 4} {x y : Payload} {s : State} {i : Instr} (hd : decodeRequest ⟨ctl, x⟩ = .ok i)
    (he : exec i s = .next (s.reply y)) : issue ctl x s = some (y, s.reply y) :=
  issue_next hd he (by simp)

end Sys2Proof.Machine
end

