-- ==== Sys2Proof/Laws/Sequences.lean ====
section
/-! SUPPORT. Windows, padding and truncation: every sequence is its whole windows followed by a remainder shorter than
one window, and an element of a sequence of windows is an element of one window. -/

namespace Sys2Proof.Machine

/-- Lengths of a sequence made of windows of one width. -/
theorem length_flatMap_of_width {α : Type} {f : α → Bits} {m : Nat} (hf : ∀ x, (f x).length = m) (xs : List α) :
    (xs.flatMap f).length = m * xs.length := by
  induction xs with
  | nil => simp
  | cons x xs ih => simp [hf, ih, Nat.mul_succ, Nat.add_comm]

/-- Element `m*k + i` is element `i` of window `k`. -/
theorem getElem?_flatMap_of_width {α : Type} {f : α → Bits} {m : Nat} (hf : ∀ x, (f x).length = m) :
    ∀ (xs : List α) (k i : Nat), i < m → (xs.flatMap f)[m * k + i]? = xs[k]?.bind fun x => (f x)[i]?
  | [], k, i, _ => by simp
  | x :: xs, 0, i, hi => by simp [List.getElem?_append_left, hf, hi]
  | x :: xs, k + 1, i, hi => by
    have h : m * (k + 1) + i = m + (m * k + i) := by rw [Nat.mul_succ]; omega
    rw [h, List.flatMap_cons, List.getElem?_append_right (by rw [hf]; omega), hf]
    simpa using getElem?_flatMap_of_width hf xs k i hi

@[simp] theorem unpackByte_length (b : Byte) : (unpackByte b).length = 8 := rfl
@[simp] theorem toBits_length (C : Codeword) : C.toBits.length = 7 := rfl
@[simp] theorem groupBits_length (G : DataGroup) : (groupBits G).length = 4 := rfl
@[simp] theorem tripleBits_length (t : Triple) : (tripleBits t).length = 3 := rfl

@[simp] theorem ofBits_toBits (C : Codeword) : Codeword.ofBits C.toBits = some C := rfl

theorem ofBits_eq_some {S : Bits} {C : Codeword} : Codeword.ofBits S = some C ↔ S = C.toBits := by
  constructor
  · intro h
    unfold Codeword.ofBits at h
    split at h
    · cases h; rfl
    · cases h
  · rintro rfl; rfl

theorem ofBits_eq_none {S : Bits} : Codeword.ofBits S = none ↔ S.length ≠ 7 := by
  match S with
  | [] | [_] | [_, _] | [_, _, _] | [_, _, _, _] | [_, _, _, _, _] | [_, _, _, _, _, _] => simp [Codeword.ofBits]
  | [_, _, _, _, _, _, _] => simp [Codeword.ofBits]
  | _ :: _ :: _ :: _ :: _ :: _ :: _ :: _ :: _ => simp [Codeword.ofBits]

/-- The byte packed from 8 bits has them, the first as bit 7 (R62). -/
theorem getLsbD_packByte : ∀ a b c d e f g h : Bit,
    unpackByte (packByte a b c d e f g h) = [a, b, c, d, e, f, g, h] := by decide

/-- Packing the bits of a byte gives it back (R62). -/
theorem packByte_unpackByte (b : Byte) :
    packByte (b.getLsbD 7) (b.getLsbD 6) (b.getLsbD 5) (b.getLsbD 4) (b.getLsbD 3) (b.getLsbD 2) (b.getLsbD 1)
      (b.getLsbD 0) = b := by
  have h := getLsbD_packByte (b.getLsbD 7) (b.getLsbD 6) (b.getLsbD 5) (b.getLsbD 4) (b.getLsbD 3) (b.getLsbD 2)
    (b.getLsbD 1) (b.getLsbD 0)
  generalize packByte _ _ _ _ _ _ _ _ = p at h
  simp only [unpackByte, List.cons.injEq, and_true] at h
  obtain ⟨h7, h6, h5, h4, h3, h2, h1, h0⟩ := h
  apply BitVec.eq_of_getLsbD_eq
  intro i hi
  match i, hi with
  | 0, _ => exact h0
  | 1, _ => exact h1
  | 2, _ => exact h2
  | 3, _ => exact h3
  | 4, _ => exact h4
  | 5, _ => exact h5
  | 6, _ => exact h6
  | 7, _ => exact h7

/-! Whole windows and a remainder -/

theorem byteWindows_flatMap (B : Bytes) (tail : Bits) (h : tail.length < 8) :
    byteWindows (B.flatMap unpackByte ++ tail) = B := by
  induction B with
  | nil =>
    match tail, h with
    | [], _ | [_], _ | [_, _], _ | [_, _, _], _ | [_, _, _, _], _ | [_, _, _, _, _], _ | [_, _, _, _, _, _], _
    | [_, _, _, _, _, _, _], _ => rfl
    | _ :: _ :: _ :: _ :: _ :: _ :: _ :: _ :: _, h => simp at h; omega
  | cons b B ih =>
    show packByte _ _ _ _ _ _ _ _ :: byteWindows (B.flatMap unpackByte ++ tail) = _
    rw [ih, packByte_unpackByte]

theorem groupWindows_flatMap (Gs : List DataGroup) (tail : Bits) (h : tail.length < 4) :
    groupWindows (Gs.flatMap groupBits ++ tail) = Gs := by
  induction Gs with
  | nil =>
    match tail, h with
    | [], _ | [_], _ | [_, _], _ | [_, _, _], _ => rfl
    | _ :: _ :: _ :: _ :: _, h => simp at h; omega
  | cons G Gs ih => exact congrArg (G :: ·) ih

theorem wordWindows_flatMap (Cs : List Codeword) (tail : Bits) (h : tail.length < 7) :
    wordWindows (Cs.flatMap Codeword.toBits ++ tail) = Cs := by
  induction Cs with
  | nil =>
    match tail, h with
    | [], _ | [_], _ | [_, _], _ | [_, _, _], _ | [_, _, _, _], _ | [_, _, _, _, _], _ | [_, _, _, _, _, _], _ => rfl
    | _ :: _ :: _ :: _ :: _ :: _ :: _ :: _, h => simp at h; omega
  | cons C Cs ih => exact congrArg (C :: ·) ih

theorem exists_bytes_append : (S : Bits) →
    ∃ B tail, S = List.flatMap unpackByte B ++ tail ∧ tail.length < 8
  | a :: b :: c :: d :: e :: f :: g :: h :: rest => by
    obtain ⟨B, tail, rfl, ht⟩ := exists_bytes_append rest
    exact ⟨packByte a b c d e f g h :: B, tail, by rw [List.flatMap_cons, getLsbD_packByte]; rfl, ht⟩
  | [] | [_] | [_, _] | [_, _, _] | [_, _, _, _] | [_, _, _, _, _] | [_, _, _, _, _, _] | [_, _, _, _, _, _, _] =>
    ⟨[], _, rfl, by simp⟩

theorem exists_groups_append : (S : Bits) →
    ∃ Gs tail, S = List.flatMap groupBits Gs ++ tail ∧ tail.length < 4
  | a :: b :: c :: d :: rest => by
    obtain ⟨Gs, tail, rfl, ht⟩ := exists_groups_append rest
    exact ⟨⟨a, b, c, d⟩ :: Gs, tail, rfl, ht⟩
  | [] | [_] | [_, _] | [_, _, _] => ⟨[], _, rfl, by simp⟩

theorem exists_words_append : (S : Bits) →
    ∃ Cs tail, S = List.flatMap Codeword.toBits Cs ++ tail ∧ tail.length < 7
  | a :: b :: c :: d :: e :: f :: g :: rest => by
    obtain ⟨Cs, tail, rfl, ht⟩ := exists_words_append rest
    exact ⟨⟨a, b, c, d, e, f, g⟩ :: Cs, tail, rfl, ht⟩
  | [] | [_] | [_, _] | [_, _, _] | [_, _, _, _] | [_, _, _, _, _] | [_, _, _, _, _, _] => ⟨[], _, rfl, by simp⟩

@[simp] theorem byteWindows_length (S : Bits) : (byteWindows S).length = S.length / 8 := by
  obtain ⟨B, tail, rfl, h⟩ := exists_bytes_append S
  rw [byteWindows_flatMap B tail h, List.length_append, length_flatMap_of_width unpackByte_length]; omega

@[simp] theorem groupWindows_length (S : Bits) : (groupWindows S).length = S.length / 4 := by
  obtain ⟨Gs, tail, rfl, h⟩ := exists_groups_append S
  rw [groupWindows_flatMap Gs tail h, List.length_append, length_flatMap_of_width groupBits_length]; omega

@[simp] theorem wordWindows_length (S : Bits) : (wordWindows S).length = S.length / 7 := by
  obtain ⟨Cs, tail, rfl, h⟩ := exists_words_append S
  rw [wordWindows_flatMap Cs tail h, List.length_append, length_flatMap_of_width toBits_length]; omega

/-- The remainder of whole words followed by a short tail is the tail. -/
theorem remainder_words (Cs : List Codeword) (tail : Bits) (h : tail.length < 7) :
    remainder 7 (Cs.flatMap Codeword.toBits ++ tail) = tail := by
  have hl := length_flatMap_of_width toBits_length Cs
  have : 7 * ((Cs.flatMap Codeword.toBits ++ tail).length / 7) = (Cs.flatMap Codeword.toBits).length := by
    rw [List.length_append, hl]; omega
  rw [remainder, this, List.drop_left]

@[simp] theorem padTo_four_length (S : Bits) : (padTo 4 S).length = 4 * ((S.length + 3) / 4) := by
  simp only [padTo, List.length_append, List.length_replicate]; omega

@[simp] theorem padTo_eight_length (S : Bits) : (padTo 8 S).length = 8 * ((S.length + 7) / 8) := by
  simp only [padTo, List.length_append, List.length_replicate]; omega

@[simp] theorem truncTo_length (m : Nat) (S : Bits) : (truncTo m S).length = m * (S.length / m) := by
  rw [truncTo, List.length_take]; exact Nat.min_eq_left (Nat.mul_div_le _ _)

/-- Length laws of the six results (R52). -/
@[simp] theorem unpackBits_length (B : Bytes) : (unpackBits B).length = 8 * B.length :=
  length_flatMap_of_width unpackByte_length B

theorem packBits_length (pad : Bit) (S : Bits) :
    (packBits pad S).length = if pad then (S.length + 7) / 8 else S.length / 8 := by
  cases pad <;> simp [packBits]

@[simp] theorem encodeBits_length (S : Bits) : (encodeBits S).length = 7 * ((S.length + 3) / 4) := by
  rw [encodeBits, length_flatMap_of_width fun G => toBits_length (enc4 G)]; simp

@[simp] theorem decodeBits_length (S : Bits) : (decodeBits S).length = 4 * (S.length / 7) := by
  rw [decodeBits, length_flatMap_of_width fun C => groupBits_length (dec7 C)]; simp

@[simp] theorem injectWords_length (rs : RSState) (Cs : List Codeword) :
    (injectWords rs Cs).1.length = Cs.length := by
  induction Cs generalizing rs with
  | nil => rfl
  | cons C Cs ih => simp [injectWords, ih]

@[simp] theorem injectBits_length (rs : RSState) (S : Bits) : (injectBits rs S).1.length = S.length := by
  simp only [injectBits, List.length_append, length_flatMap_of_width toBits_length, injectWords_length,
    wordWindows_length, remainder, List.length_drop]
  omega

/-- Window `k` as the slice `S[m*k .. m*k+m)`. -/
theorem drop_take_flatMap_of_width {α : Type} {f : α → Bits} {m : Nat} (hf : ∀ x, (f x).length = m) :
    ∀ (xs : List α) (k : Nat) (hk : k < xs.length), ((xs.flatMap f).drop (m * k)).take m = f xs[k]
  | x :: xs, 0, _ => by simp [hf]
  | x :: xs, k + 1, hk => by
    have h : m * (k + 1) = (f x).length + m * k := by rw [hf, Nat.mul_succ]; omega
    rw [List.flatMap_cons, h, ← List.drop_drop, List.drop_left]
    exact drop_take_flatMap_of_width hf xs k (Nat.lt_of_succ_lt_succ hk)

/-- Padding changes no element and adds only zeros (R28). -/
theorem getD_padTo (m : Nat) (S : Bits) (k : Nat) : (padTo m S).getD k false = S.getD k false := by
  rw [padTo, List.getD_eq_getElem?_getD, List.getD_eq_getElem?_getD, List.getElem?_append]
  split
  · rfl
  · rw [List.getElem?_eq_none (l := S) (by omega), List.getElem?_replicate]
    split <;> rfl

/-- A flip negates its own array index and no other. -/
theorem getElem?_flipAt (C : Codeword) (i : Fin 7) (j : Nat) (hj : j < 7) :
    (flipAt C i).toBits[j]? = if i.val = j then C.toBits[j]?.map (!·) else C.toBits[j]? := by
  interval_cases j <;> fin_cases i <;> rfl

/-- INJECT on whole words and a remainder: the words go through the source, the remainder passes (R81, R84). -/
theorem injectBits_words (rs : RSState) (Cs : List Codeword) (tail : Bits) (h : tail.length < 7) :
    injectBits rs (Cs.flatMap Codeword.toBits ++ tail) =
      ((injectWords rs Cs).1.flatMap Codeword.toBits ++ tail, (injectWords rs Cs).2) := by
  simp only [injectBits, wordWindows_flatMap _ _ h, remainder_words _ _ h]

end Sys2Proof.Machine
end

