-- ==== Sys2Proof/Tests/Slice0.lean ====
section
/-! SUPPORT. Small tests, each of one decoding or one step, with expected results from spec/95_test_vectors.md; the
ill-formed terms each check refuses; and a witness for the hypotheses of every statement that has some. -/

namespace Sys2Proof.Tests

open Machine

/-- A BitSequence written as the spec writes it, element 0 first. -/
def b (S : List Nat) : Bits := S.map (· == 1)

/-- The reset state with a MAXLEN. -/
def small (maxLen : Option Nat) : State := { State.reset with maxLen := maxLen }

/-- A seeded block whose source answers these draws next. -/
def drawing (ds : List Draw) : State := { State.reset with block := ⟨true, ⟨ds, 0⟩⟩ }

/-- The result an outcome records last, if it is a next state. -/
def result : Host.Outcome State Fault Refusal → Option Payload
  | .next t => (t.observed.getLast?.bind id).map (·.result)
  | .refused _ => none

/-- A request as the host's only pending action. -/
def asked (ctl : BitVec 4) (x : Payload) (s : State := State.reset) : State :=
  { s with pending := [.request ⟨ctl, x⟩] }

/-! ### Decoding: control words written out from 30_encoding.md R49 and R51 -/

theorem test_decode_unpack : decodeRequest ⟨0b0000#4, .bytes [0xA5#8]⟩ = .ok (.unpack [0xA5#8]) := by decide
theorem test_decode_unpack_pad_ignored : decodeRequest ⟨0b1000#4, .bytes [0xA5#8]⟩ = .ok (.unpack [0xA5#8]) := by decide
theorem test_decode_pack_0 : decodeRequest ⟨0b0001#4, .bits (b [1, 0, 1])⟩ = .ok (.pack false (b [1, 0, 1])) := by decide
theorem test_decode_pack_1 : decodeRequest ⟨0b1001#4, .bits (b [1, 0, 1])⟩ = .ok (.pack true (b [1, 0, 1])) := by decide
theorem test_decode_encode : decodeRequest ⟨0b0010#4, .bits (b [1, 0, 1, 0])⟩ = .ok (.encode (b [1, 0, 1, 0])) := by decide
theorem test_decode_inject : decodeRequest ⟨0b0011#4, .bits []⟩ = .ok (.inject []) := by decide
theorem test_decode_syndrome : decodeRequest ⟨0b0100#4, .bits (b [1, 0, 1, 0, 0, 1, 1])⟩ =
    .ok (.syndrome { d7 := true, d6 := false, d5 := true, p4 := false, d3 := false, p2 := true, p1 := true }) := by decide
theorem test_decode_decode : decodeRequest ⟨0b0101#4, .bits (b [1])⟩ = .ok (.decode (b [1])) := by decide

theorem test_table_word_pack : decodeTableWord 8 9 = some (.pack true (List.replicate 8 false)) := by decide
theorem test_table_word_reserved : decodeTableWord 8 7 = none := by decide
theorem test_fetch_word_inject : ∃ t, step (State.reset.withFetchWord 8 3) = .next t := ⟨_, rfl⟩
theorem test_fetch_word_syndrome : result (step (State.reset.withFetchWord 8 4)) = some (.bits (b [0, 0, 0])) := by decide

/-! ### WellFormed: one ill-formed term for each check -/

theorem test_refuses_reserved_op : decodeRequest ⟨0b1110#4, .bits []⟩ = .error .reservedOp := by decide
theorem test_refuses_bits_for_bytes : decodeRequest ⟨0x0#4, .bits (b [1])⟩ = .error .operandType := by decide
theorem test_refuses_bytes_for_bits : decodeRequest ⟨0x2#4, .bytes [0xA5#8]⟩ = .error .operandType := by decide
theorem test_refuses_bytes_for_codeword : decodeRequest ⟨0x4#4, .bytes [0xA5#8]⟩ = .error .operandType := by decide
theorem test_refuses_six_bit_codeword : decodeRequest ⟨0x4#4, .bits (b [1, 0, 1, 0, 0, 1])⟩ = .error .syndromeLength := by decide
theorem test_refuses_eight_bit_codeword : decodeRequest ⟨0x4#4, .bits (b [1, 0, 1, 0, 0, 1, 0, 1])⟩ = .error .syndromeLength := by
  decide
theorem test_refuses_long_operand : ¬ (Instr.pack false (b [1, 0, 1])).WellFormed (some 2) := by decide
theorem test_refuses_long_result : (Instr.unpack [0x01#8]).check (some 7) = some .resultTooLong := by decide
theorem test_accepts_result_of_maxLen : (Instr.unpack [0x01#8]).WellFormed (some 8) := by decide

/-! ### One step of each operation (95_test_vectors.md sections 2.1 to 2.6 and 2.8) -/

theorem test_unpack : result (exec (.unpack [0xA4#8, 0xB4#8]) State.reset) =
    some (.bits (b [1, 0, 1, 0, 0, 1, 0, 0, 1, 0, 1, 1, 0, 1, 0, 0])) := by decide
theorem test_unpack_refused_over_maxLen :
    exec (.unpack [0x01#8]) (small (some 7)) = .refused (.illFormed .resultTooLong) := rfl

theorem test_pack_appends_zeros : result (exec (.pack true (b [1, 0, 1, 0, 0, 1, 0, 0, 1, 0, 1, 1, 0, 1])) State.reset) =
    some (.bytes [0xA4#8, 0xB4#8]) := by decide
theorem test_pack_drops_bits : result (exec (.pack false (b [0, 0, 0, 0, 0, 0, 0, 1, 0, 0, 0, 0, 0, 0, 0])) State.reset) =
    some (.bytes [0x01#8]) := by decide

theorem test_encode_pads : result (exec (.encode (b [1, 1, 1, 1, 1])) State.reset) =
    some (.bits (b [1, 1, 1, 1, 1, 1, 1, 1, 0, 0, 1, 0, 1, 1])) := by decide
theorem test_encode_two_groups : result (exec (.encode (b [1, 0, 1, 0, 0, 1, 0, 1])) State.reset) =
    some (.bits (b [1, 0, 1, 0, 0, 1, 0, 0, 1, 0, 1, 1, 0, 1])) := by decide

theorem test_inject_two_flips : result (exec (.inject (b [1, 0, 1, 0, 0, 1, 0, 0, 1, 0, 1, 1, 0, 1, 0, 0])) (drawing [4, 6, 4, 2])) =
    some (.bits (b [1, 0, 1, 0, 0, 1, 1, 0, 1, 1, 1, 1, 0, 1, 0, 0])) := by decide
theorem test_inject_only_sentinel_flips : exec (.inject (b [1, 0, 1, 0, 0, 1, 0, 0, 1, 0, 1, 1, 0, 1])) (drawing [3, 4, 4]) =
    .next { drawing [] with observed := [some ⟨.bits (b [1, 0, 1, 0, 0, 1, 0, 0, 1, 0, 1, 0, 0, 1])⟩] } := rfl

theorem test_syndrome_position_3 : result (exec (.syndrome ⟨true, false, true, false, true, true, false⟩) State.reset) =
    some (.bits (b [0, 1, 1])) := by decide
theorem test_syndrome_two_errors : result (exec (.syndrome ⟨false, true, true, false, false, true, false⟩) State.reset) =
    some (.bits (b [0, 0, 1])) := by decide

theorem test_decode_corrects : result (exec (.decode (b [1, 0, 1, 0, 0, 1, 1, 0, 1, 1, 1, 1, 0, 1, 0, 0])) State.reset) =
    some (.bits (b [1, 0, 1, 0, 0, 1, 0, 1])) := by decide
theorem test_decode_two_errors_wrong : result (exec (.decode (b [0, 1, 1, 0, 0, 1, 0])) State.reset) =
    some (.bits (b [0, 1, 1, 0])) := by decide

/-- A refused request never seeds and leaves the block as it was; an empty INJECT seeds (section 2.8). -/
theorem test_refused_leaves_block : step (asked 0x3#4 (.bytes [0xA5#8])) = .next { State.reset with observed := [none] } := rfl
theorem test_empty_inject_seeds : step (asked 0x3#4 (.bits [])) = .next { State.reset with
    block := ⟨true, Config.freeSource 0⟩, fresh := 1, observed := [some ⟨.bits []⟩] } := rfl

/-- `ENCODE_FILE <0xA5> = <0xA4, 0xB4>` (section 3, P1). -/
theorem test_encode_file : (encodeFile [0xA5#8] State.reset).map (·.1) = some (.bytes [0xA4#8, 0xB4#8]) := by decide

/-! ### Witnesses: the hypotheses of each statement hold together somewhere, each clause at a boundary -/

theorem witness_DecodeAndEncodeAgree : ∃ r i, decodeRequest r = .ok i := ⟨_, _, test_decode_unpack_pad_ignored⟩

theorem witness_IllFormed_reserved :
    (asked 0x6#4 (.bits [])).pending = .request ⟨0x6#4, .bits []⟩ :: [] ∧ RequestIllFormed none ⟨0x6#4, .bits []⟩ :=
  ⟨rfl, .inl (by decide)⟩
theorem witness_IllFormed_bits_for_bytes : RequestIllFormed none ⟨0x8#4, .bits []⟩ := .inr (.inl ⟨by decide, _, rfl⟩)
theorem witness_IllFormed_bytes_for_bits : RequestIllFormed none ⟨0x1#4, .bytes []⟩ := .inr (.inr (.inl ⟨by decide, _, rfl⟩))
theorem witness_IllFormed_syndrome_six : RequestIllFormed none ⟨0x4#4, .bits (b [1, 0, 1, 0, 0, 1])⟩ :=
  .inr (.inr (.inr (.inl (by decide))))
theorem witness_IllFormed_operand_too_long : RequestIllFormed (some 2) ⟨0x1#4, .bits (b [1, 0, 1])⟩ :=
  .inr (.inr (.inr (.inr ⟨2, rfl, .inl (by decide)⟩)))
theorem witness_IllFormed_result_too_long : RequestIllFormed (some 7) ⟨0x0#4, .bytes [0x01#8]⟩ :=
  .inr (.inr (.inr (.inr ⟨7, rfl, .inr (by decide)⟩)))

/-- The largest `op`, and operand and result exactly MAXLEN or less. -/
theorem witness_WellFormedRequestIsServed :
    (asked 0x5#4 (.bits (b [1, 0, 1, 0, 0, 1, 0])) (small (some 7))).pending =
      .request ⟨0x5#4, .bits (b [1, 0, 1, 0, 0, 1, 0])⟩ :: [] ∧
    ¬ RequestIllFormed (some 7) ⟨0x5#4, .bits (b [1, 0, 1, 0, 0, 1, 0])⟩ := by
  refine ⟨rfl, ?_⟩
  rintro (h | ⟨h, -⟩ | ⟨-, B, h⟩ | ⟨h, -⟩ | ⟨m, hm, h⟩)
  · revert h; decide
  · revert h; decide
  · cases h
  · revert h; decide
  · cases hm; revert h; decide

theorem witness_Overlong_operand : (small (some 2)).maxLen = some 2 ∧ 2 < (Instr.encode (b [1, 0, 1])).operandLength := by decide
theorem witness_Overlong_result : (small (some 6)).maxLen = some 6 ∧
    (Instr.encode (b [1])).operandLength ≤ 6 ∧ 6 < (Instr.encode (b [1])).resultLength := by decide

theorem witness_StepRunsDecodedRequest_next : ∃ t,
    (asked 0x2#4 (.bits (b [1]))).pending = [.request ⟨0x2#4, .bits (b [1])⟩] ∧
    decodeRequest ⟨0x2#4, .bits (b [1])⟩ = .ok (.encode (b [1])) ∧ exec (.encode (b [1])) State.reset = .next t :=
  ⟨_, rfl, rfl, rfl⟩
theorem witness_StepRunsDecodedRequest_refused : ∃ why,
    (asked 0x2#4 (.bits (b [1])) (small (some 6))).pending = [.request ⟨0x2#4, .bits (b [1])⟩] ∧
    decodeRequest ⟨0x2#4, .bits (b [1])⟩ = .ok (.encode (b [1])) ∧
    exec (.encode (b [1])) (small (some 6)) = .refused why :=
  ⟨_, rfl, rfl, rfl⟩

theorem witness_IdleStepKeepsState : State.reset.pending = [] := rfl

theorem witness_ResetLeavesUnseeded : { drawing [4] with pending := [.reset] }.pending = .reset :: [] := rfl

theorem test_host_reset : step { drawing [4] with pending := [.reset] } = .next { State.reset with
    block := ⟨false, Config.freeSource 0⟩, fresh := 1 } := rfl
theorem witness_SeededUntilReset_reset : ∃ t, step { drawing [4] with pending := [.reset] } = .next t ∧
    { drawing [4] with pending := [.reset] }.block.seeded = true := ⟨_, rfl, rfl⟩
theorem witness_SeededUntilReset_inject : ∃ t, step (asked 0x3#4 (.bits []) (drawing [4])) = .next t ∧
    (asked 0x3#4 (.bits []) (drawing [4])).block.seeded = true := ⟨_, rfl, rfl⟩
theorem witness_OnlyInjectAndResetTouchBlock : ∃ t, step (asked 0x3#4 (.bits [])) = .next t ∧
    t.block ≠ (asked 0x3#4 (.bits [])).block := ⟨_, rfl, fun h => absurd (congrArg Block.seeded h) (by decide)⟩

theorem witness_StepFrame : ∃ t, step (asked 0x6#4 (.bits [])) = .next t := ⟨_, rfl⟩

theorem witness_StepKeepsRunInvariant : ∃ t, RunInvariant 1 (asked 0x6#4 (.bits [])) ∧
    step (asked 0x6#4 (.bits [])) = .next t := by
  refine ⟨_, ⟨rfl, ?_⟩, rfl⟩
  intro y h; cases h

theorem witness_PureOperationsIgnoreState : (∀ S, Instr.unpack [0x01#8] ≠ .inject S) ∧
    (Instr.unpack [0x01#8]).WellFormed (small (some 8)).maxLen := by
  refine ⟨?_, by decide⟩
  intro S h; cases h

theorem witness_UnpackResult : fits (small (some 8)).maxLen (8 * [0xA5#8].length) = true := by decide
theorem witness_UnpackResult_last : 0 < [0xA5#8].length ∧ 7 ≤ 7 := by decide
theorem witness_PackResult : fits (small (some 9)).maxLen (b [1, 1, 1, 1, 1, 1, 1, 1, 1]).length = true := by decide
theorem witness_PackUnpackInverse : fits (small (some 16)).maxLen (8 * (((b [1, 1, 1, 1, 1, 1, 1, 1, 1]).length + 7) / 8)) = true ∧
    fits (small (some 16)).maxLen (8 * [0xA4#8, 0xB4#8].length) = true := by decide
theorem witness_PackDuty_kept : PackDutyKept false (b [1, 0, 1, 0, 0, 1, 0, 1]) := .inr (by decide)
theorem witness_PackDuty_broken : ¬ PackDutyKept false (b [1]) := by
  rintro (h | h) <;> revert h <;> decide
theorem witness_EncodeResult : fits (small (some 14)).maxLen (7 * (((b [1, 1, 1, 1, 1]).length + 3) / 4)) = true ∧
    1 < ((b [1, 1, 1, 1, 1]).length + 3) / 4 := by decide
theorem witness_EncodedWordsAreValid : ∃ C : Codeword, 0 < ((b [1]).length + 3) / 4 ∧
    C.toBits = ((encodeBits (b [1])).drop (7 * 0)).take 7 := ⟨⟨true, false, false, true, false, true, true⟩, by decide⟩
theorem witness_EncodeActsGroupByGroup : (b [1, 0, 1, 0]).length % 4 = 0 ∧
    fits (small (some 14)).maxLen (7 * (((b [1, 0, 1, 0]).length + (b [1]).length + 3) / 4)) = true := by decide

/-- The draws 4, 6, 4, 2 of 95_test_vectors.md section 2.4, with one more queued behind them. -/
theorem witness_InjectFollowsItsDraws :
    let S := b [1, 0, 1, 0, 0, 1, 0, 0, 1, 0, 1, 1, 0, 1, 0, 0]
    let s := { drawing [4, 6, 4, 2, 5] with maxLen := some 16 }
    s.block.seeded = true ∧ [((4 : Draw), (6 : Draw)), (4, 2)].length = S.length / 7 ∧
      s.block.rs.queued = [((4 : Draw), (6 : Draw)), (4, 2)].flatMap wordDraws ++ [5] ∧
      fits s.maxLen S.length = true := by decide
theorem witness_FirstInjectSeeds : (small (some 6)).block.seeded = false ∧
    fits (small (some 6)).maxLen (b [1, 0, 1, 0, 0, 1]).length = true ∧ (b [1, 0, 1, 0, 0, 1]).length < 7 := by decide
/-- The source is seeded also where the operand holds a whole codeword. -/
theorem witness_FirstInjectSeeds_one_word : (small (some 7)).block.seeded = false ∧
    fits (small (some 7)).maxLen (b [1, 0, 1, 0, 0, 1, 0]).length = true := by decide
theorem witness_InjectCompletes_unseeded : (small (some 7)).block.seeded = false ∧
    fits (small (some 7)).maxLen (b [1, 0, 1, 0, 0, 1, 0]).length = true := by decide
theorem witness_InjectCompletes_seeded : { drawing [4, 6] with maxLen := some 7 }.block.seeded = true ∧
    fits { drawing [4, 6] with maxLen := some 7 }.maxLen (b [1, 0, 1, 0, 0, 1, 0]).length = true := by decide

/-- One codeword and two trailing bits, the last bit of the codeword negated. -/
theorem witness_EveryAllowedNoiseIsPossible :
    AtMostOneErrorPerWord (b [1, 0, 1, 0, 0, 1, 0, 1, 1]) (b [1, 0, 1, 0, 0, 1, 1, 1, 1]) ∧
    SameTrailingBits (b [1, 0, 1, 0, 0, 1, 0, 1, 1]) (b [1, 0, 1, 0, 0, 1, 1, 1, 1]) ∧
    ∃ s : State, s.block = ⟨true, ⟨[4, 6], 0⟩⟩ ∧ fits s.maxLen (b [1, 0, 1, 0, 0, 1, 0, 1, 1]).length = true := by
  refine ⟨⟨rfl, ?_⟩, ?_, drawing [4, 6], rfl, rfl⟩
  · intro k i j hk hi hj h1 h2
    have hk0 : k = 0 := by simp [b] at hk; omega
    subst hk0
    interval_cases i <;> interval_cases j <;> first | rfl | exact absurd rfl h1 | exact absurd rfl h2
  · intro i hi
    simp only [b, List.length_map, List.length_cons, List.length_nil] at hi
    match i, hi with
    | 7, _ => rfl
    | 8, _ => rfl
    | n + 9, _ => rfl

theorem witness_SyndromeResult : fits (small (some 7)).maxLen 7 = true := by decide
theorem witness_SyndromeNamesThePosition : validCodeword ⟨true, false, true, false, false, true, false⟩ = true := by decide
theorem witness_DecodeResult : fits (small (some 16)).maxLen (b [1, 0, 1, 0, 0, 1, 0, 0, 1, 0, 1, 1, 0, 1, 0, 0]).length = true ∧
    1 < (b [1, 0, 1, 0, 0, 1, 0, 0, 1, 0, 1, 1, 0, 1, 0, 0]).length / 7 := by decide
theorem witness_DecodeActsWordByWord : (b [1, 0, 1, 0, 0, 1, 0]).length % 7 = 0 ∧
    fits (small (some 8)).maxLen ((b [1, 0, 1, 0, 0, 1, 0]).length + (b [1]).length) = true := by decide
theorem witness_SingleErrorIsCorrected : validCodeword ⟨false, true, false, true, true, false, true⟩ = true ∧
    fits (small (some 7)).maxLen 7 = true := by decide
theorem witness_DoubleErrorIsMiscorrected : validCodeword ⟨true, false, true, false, false, true, false⟩ = true ∧
    (0 : Fin 7) ≠ 6 := by decide
theorem witness_DecodeUndoesEncode : fits (small (some 14)).maxLen (7 * (((b [1, 0, 1, 0, 0, 1]).length + 3) / 4)) = true := by decide

theorem witness_DecodeCorrectsOneErrorPerWord :
    fits (small (some 7)).maxLen (7 * (((b [1, 0, 1, 0]).length + 3) / 4)) = true ∧
    AtMostOneErrorPerWord (encodeBits (b [1, 0, 1, 0])) (b [0, 0, 1, 0, 0, 1, 0]) := by
  refine ⟨by decide, rfl, ?_⟩
  intro k i j hk hi hj h1 h2
  have hk0 : k = 0 := by
    have h : (encodeBits (b [1, 0, 1, 0])).length / 7 = 1 := by decide
    omega
  subst hk0
  interval_cases i <;> interval_cases j <;> first | rfl | exact absurd rfl h1 | exact absurd rfl h2

theorem witness_EncodeFileSize : fits (small (some 14)).maxLen (14 * [0xA5#8].length) = true := by decide
theorem witness_FileRoundTrip : fits (small (some 16)).maxLen (8 * ((7 * [0xA5#8].length + 3) / 4)) = true := by decide
theorem witness_NoisyFileRoundTrip : fits (small none).maxLen (8 * ((7 * [0xA5#8].length + 3) / 4)) = true := by decide
/-- 25 bits, 7 codewords, 7 pad bits (95_test_vectors.md section 2.7), and a length with fewer pad bits. -/
theorem witness_PadBitsMakeAnExtraGroup : fits (small (some 56)).maxLen (8 * ((7 * ((25 + 3) / 4) + 7) / 8)) = true ∧
    (25 + 3) / 4 % 8 = 7 ∧ ¬ (24 + 3) / 4 % 8 = 7 := by decide

end Sys2Proof.Tests
end

section
/-! INJECT in every state: the state it leaves, and the shape of its result whatever is drawn (R81, R84, R87). -/

namespace Sys2Proof.Machine

/-! ### The state -/

/-- Seeding as one update of the fields it names, whether or not the block was seeded before (R17). -/
theorem State.seedSource_eq (s : State) :
    s.seedSource = { s with
      block := ⟨true, s.seedSource.block.rs⟩, fresh := if s.block.seeded then s.fresh else s.fresh + 1 } := by
  cases h : s.block.seeded with
  | false => simp [State.seedSource_of_unseeded h]
  | true => simp [State.seedSource_of_seeded h, ← h]

/-- An operand within MAXLEN is never refused by INJECT, whose result is as long (R52, R53). -/
theorem exec_inject_of_fits {S : Bits} {s : State} (h : fits s.maxLen S.length = true) :
    exec (.inject S) s = .next ((s.seedSource.withSource (injectBits s.seedSource.block.rs S).2).reply
      (.bits (injectBits s.seedSource.block.rs S).1)) :=
  respond_next h ((congrArg (fits s.maxLen) (injectBits_length _ S)).trans h)

/-! ### The result -/

/-- `D` is `C` with at most one array index negated. -/
def WithinOneFlip (C D : Codeword) : Prop :=
  D = C ∨ ∃ i, D = flipAt C i

/-- Both branches of one codeword's draws: no flip, or the one the second draw names (R82, R83). -/
theorem injectWord_withinOneFlip (rs : RSState) (C : Codeword) : WithinOneFlip C (injectWord rs C).1 := by
  by_cases h : (draw rs).1 = sentinel
  · exact .inr ⟨(draw (draw rs).2).1, by simp [injectWord, h]⟩
  · exact .inl (by simp [injectWord, h])

theorem injectWords_withinOneFlip (rs : RSState) (Cs : List Codeword) :
    List.Forall₂ WithinOneFlip Cs (injectWords rs Cs).1 := by
  induction Cs generalizing rs with
  | nil => exact .nil
  | cons C Cs ih => exact .cons (injectWord_withinOneFlip rs C) (ih _)

/-- Only the index of the flip can differ. -/
theorem WithinOneFlip.index_unique {C D : Codeword} (h : WithinOneFlip C D) {i j : Nat} (hi : i < 7) (hj : j < 7)
    (hdi : D.toBits[i]? ≠ C.toBits[i]?) (hdj : D.toBits[j]? ≠ C.toBits[j]?) : i = j := by
  obtain rfl | ⟨a, rfl⟩ := h
  · exact absurd rfl hdi
  · have differs_only_at_a : ∀ n < 7, (flipAt C a).toBits[n]? ≠ C.toBits[n]? → a.val = n := fun n hn hd =>
      Decidable.byContradiction fun hne => hd (by rw [getElem?_flipAt C a n hn, if_neg hne])
    exact (differs_only_at_a i hi hdi).symm.trans (differs_only_at_a j hj hdj)

/-- Element `7*k + i` of whole words and a tail is element `i` of word `k`. -/
theorem getElem?_words_append (Cs : List Codeword) (tail : Bits) {k i : Nat} (hk : k < Cs.length) (hi : i < 7) :
    (Cs.flatMap Codeword.toBits ++ tail)[7 * k + i]? = Cs[k].toBits[i]? := by
  have hl := length_flatMap_of_width toBits_length Cs
  rw [List.getElem?_append_left (by omega), getElem?_flatMap_of_width toBits_length Cs k i hi,
    List.getElem?_eq_getElem hk, Option.bind_some]

/-- A sequence of whole words and a short tail has as many whole words. -/
theorem words_append_length_div (Cs : List Codeword) {tail : Bits} (h : tail.length < 7) :
    (Cs.flatMap Codeword.toBits ++ tail).length / 7 = Cs.length := by
  rw [List.length_append, length_flatMap_of_width toBits_length]; omega

theorem atMostOneErrorPerWord_of_words {Cs Ds : List Codeword} {tail : Bits} (ht : tail.length < 7)
    (h : List.Forall₂ WithinOneFlip Cs Ds) :
    AtMostOneErrorPerWord (Cs.flatMap Codeword.toBits ++ tail) (Ds.flatMap Codeword.toBits ++ tail) := by
  refine ⟨?_, ?_⟩
  · simp only [List.length_append, length_flatMap_of_width toBits_length, h.length_eq]
  · intro k i j hk hi hj hdi hdj
    have hC : k < Cs.length := words_append_length_div Cs ht ▸ hk
    have hD : k < Ds.length := h.length_eq ▸ hC
    rw [getElem?_words_append Cs tail hC hi, getElem?_words_append Ds tail hD hi] at hdi
    rw [getElem?_words_append Cs tail hC hj, getElem?_words_append Ds tail hD hj] at hdj
    exact (h.get hC hD).index_unique hi hj hdi hdj

theorem sameTrailingBits_of_words {Cs Ds : List Codeword} {tail : Bits} (ht : tail.length < 7)
    (h : Ds.length = Cs.length) :
    SameTrailingBits (Cs.flatMap Codeword.toBits ++ tail) (Ds.flatMap Codeword.toBits ++ tail) := by
  intro i hi
  rw [words_append_length_div Cs ht] at hi
  have hC := length_flatMap_of_width toBits_length Cs
  have hD := length_flatMap_of_width toBits_length Ds
  rw [List.getElem?_append_right (by omega), List.getElem?_append_right (by omega), hC, hD, h]

/-- Whatever the source draws, INJECT's result has the shape of R87, with the trailing bits of R84. -/
theorem injectBits_shape (rs : RSState) (S : Bits) :
    AtMostOneErrorPerWord S (injectBits rs S).1 ∧ SameTrailingBits S (injectBits rs S).1 := by
  obtain ⟨Cs, tail, rfl, ht⟩ := exists_words_append S
  rw [injectBits_words rs Cs tail ht]
  exact ⟨atMostOneErrorPerWord_of_words ht (injectWords_withinOneFlip rs Cs),
    sameTrailingBits_of_words ht (injectWords_length rs Cs)⟩

/-- Settles O28: the state by the fields that seeding and the draws touch, the result by its shape for every source. -/
theorem injectCompletes : Obligations.InjectCompletes := by
  intro S s hfits
  refine ⟨(injectBits s.seedSource.block.rs S).1, (injectBits s.seedSource.block.rs S).2, ?_, injectBits_shape _ S⟩
  rw [exec_inject_of_fits hfits, State.seedSource_eq]
  rfl

end Sys2Proof.Machine
end

section
/-! The BitPacker: the results of UNPACK and PACK element by element, and the answers they are (R61, R63). -/

namespace Sys2Proof.Machine

/-! ### UNPACK -/

/-- A byte's bits run from bit 7 down (R60). -/
theorem getElem?_unpackByte (b : Byte) {i : Nat} (hi : i ≤ 7) : (unpackByte b)[i]? = some (b.getLsbD (7 - i)) := by
  interval_cases i <;> rfl

theorem getElem?_unpackBits (B : Bytes) {j i : Nat} (hj : j < B.length) (hi : i ≤ 7) :
    (unpackBits B)[8 * j + i]? = some (B[j].getLsbD (7 - i)) := by
  rw [unpackBits, getElem?_flatMap_of_width unpackByte_length B j i (by omega), List.getElem?_eq_getElem hj,
    Option.bind_some, getElem?_unpackByte _ hi]

/-- The operand is no longer than the result, so MAXLEN refuses by the result alone (R52, R53). -/
theorem answers_unpack {B : Bytes} {s : State} (h : fits s.maxLen (8 * B.length) = true) :
    Answers (.unpack B) s (.bits (unpackBits B)) :=
  respond_next (fits_mono (Nat.le_mul_of_pos_left _ (by decide)) h)
    ((congrArg (fits s.maxLen) (unpackBits_length B)).trans h)

/-- Settles O18: the windows of `unpackBits` are the operand's bytes, each of width 8. -/
theorem unpackResult : Obligations.UnpackResult := fun B _ hfits =>
  ⟨unpackBits B, answers_unpack hfits, unpackBits_length B, fun _ _ hj hi => getElem?_unpackBits B hj hi⟩

/-! ### PACK -/

/-- Unpacking the whole windows gives the sequence back, but for a tail that completes no byte. -/
theorem unpackBits_byteWindows_prefix (S : Bits) : unpackBits (byteWindows S) <+: S := by
  obtain ⟨B, tail, rfl, h⟩ := exists_bytes_append S
  rw [byteWindows_flatMap B tail h]
  exact List.prefix_append _ tail

/-- A byte of the windows holds the sequence's bits, read back by unpacking it (R61, R62). -/
theorem getLsbD_byteWindows (S : Bits) {j i : Nat} (hj : j < (byteWindows S).length) (hi : i ≤ 7) :
    (byteWindows S)[j].getLsbD (7 - i) = S.getD (8 * j + i) false := by
  obtain ⟨tail, hS⟩ := unpackBits_byteWindows_prefix S
  have inside : 8 * j + i < (unpackBits (byteWindows S)).length := by rw [unpackBits_length]; omega
  calc (byteWindows S)[j].getLsbD (7 - i)
      = (unpackBits (byteWindows S)).getD (8 * j + i) false := by
        rw [List.getD_eq_getElem?_getD, getElem?_unpackBits _ hj hi, Option.getD_some]
    _ = (unpackBits (byteWindows S) ++ tail).getD (8 * j + i) false := (List.getD_append _ _ _ _ inside).symm
    _ = S.getD (8 * j + i) false := by rw [hS]

/-- Truncation changes no element of the prefix it keeps (R29). -/
theorem getD_truncTo {m : Nat} {S : Bits} {k : Nat} (hk : k < m * (S.length / m)) :
    (truncTo m S).getD k false = S.getD k false := by
  rw [truncTo, List.getD_eq_getElem?_getD, List.getD_eq_getElem?_getD, List.getElem?_take_of_lt hk]

/-- Whatever `pad` is, the bits of the result's bytes are the operand's, and 0 beyond its end (R63). -/
theorem getLsbD_packBits (pad : Bit) (S : Bits) {j i : Nat} (hj : j < (packBits pad S).length) (hi : i ≤ 7) :
    (packBits pad S)[j].getLsbD (7 - i) = S.getD (8 * j + i) false := by
  cases pad with
  | true => exact (getLsbD_byteWindows (padTo 8 S) hj hi).trans (getD_padTo 8 S _)
  | false =>
    have kept : j < S.length / 8 := hj.trans_eq (packBits_length false S)
    exact (getLsbD_byteWindows (truncTo 8 S) hj hi).trans (getD_truncTo (by omega))

/-- The result is no longer than the operand, so MAXLEN refuses by the operand alone (R52, R53). -/
theorem answers_pack (pad : Bit) {S : Bits} {s : State} (h : fits s.maxLen S.length = true) :
    Answers (.pack pad S) s (.bytes (packBits pad S)) := by
  have shorter : (packBits pad S).length ≤ S.length := by
    rw [packBits_length]
    split <;> omega
  exact respond_next h (fits_mono shorter h)

/-- Settles O19: both values of `pad` cut the operand, padded or truncated, into whole windows of 8. -/
theorem packResult : Obligations.PackResult := fun pad S _ hfits =>
  ⟨packBits pad S, answers_pack pad hfits, packBits_length pad S, fun _ _ hj hi => getLsbD_packBits pad S hj hi⟩

end Sys2Proof.Machine
end

section
/-! The HammingEncoder: the codewords of an ENCODE result, the triple procedure beside the equations, and the parity
checks and syndrome of an emitted codeword (R70 to R76). -/

namespace Sys2Proof.Machine

/-! ### DataGroups and their codewords -/

/-- DataGroup `k` of a sequence, with zeros beyond the sequence's end (R41, R28). -/
def groupAt (S : Bits) (k : Nat) : DataGroup :=
  ⟨S.getD (4 * k) false, S.getD (4 * k + 1) false, S.getD (4 * k + 2) false, S.getD (4 * k + 3) false⟩

theorem getElem_groupWindows :
    ∀ (S : Bits) (k : Nat) (hk : k < (groupWindows S).length), (groupWindows S)[k] = groupAt S k
  | _ :: _ :: _ :: _ :: _, 0, _ => rfl
  | _ :: _ :: _ :: _ :: rest, k + 1, hk => getElem_groupWindows rest k (Nat.lt_of_succ_lt_succ hk)
  | [], _, hk | [_], _, hk | [_, _], _, hk | [_, _, _], _, hk => absurd hk (Nat.not_lt_zero _)

/-- Padding puts zeros where `groupAt` already reads zeros (R28). -/
theorem groupAt_padTo (m : Nat) (S : Bits) (k : Nat) : groupAt (padTo m S) k = groupAt S k := by
  simp only [groupAt, getD_padTo]

/-- Codeword `k` of the result is the encoding of DataGroup `k` (R73, R74). -/
theorem encodeBits_codeword (S : Bits) {k : Nat} (hk : k < (S.length + 3) / 4) :
    ((encodeBits S).drop (7 * k)).take 7 = (enc4 (groupAt S k)).toBits := by
  have inside : k < (groupWindows (padTo 4 S)).length := by
    rw [groupWindows_length, padTo_four_length]; omega
  rw [encodeBits, drop_take_flatMap_of_width (fun G => toBits_length (enc4 G)) _ k inside, getElem_groupWindows,
    groupAt_padTo]

/-- The operand is no longer than the result, so MAXLEN refuses by the result alone (R52, R53). -/
theorem answers_encode {S : Bits} {s : State} (h : fits s.maxLen (7 * ((S.length + 3) / 4)) = true) :
    Answers (.encode S) s (.bits (encodeBits S)) := by
  have shorter : S.length ≤ 7 * ((S.length + 3) / 4) := by omega
  exact respond_next (fits_mono shorter h) ((congrArg (fits s.maxLen) (encodeBits_length S)).trans h)

/-- Settles O22: the windows of `encodeBits` are the encoded DataGroups of the operand, each of width 7. -/
theorem encodeResult : Obligations.EncodeResult := fun S _ hfits =>
  ⟨encodeBits S, answers_encode hfits, encodeBits_length S, fun _ hk => encodeBits_codeword S hk⟩

/-! ### Recorded position codes -/

/-- Recording position `p` adds its bit to the slots where `code(p)` has a 1 (R44, R71, R90). -/
theorem record_eq (t : Triple) (p : Nat) (bit : Bit) :
    record t p bit = ⟨t.s4 ^^ ((positionCode p).s4 && bit), t.s2 ^^ ((positionCode p).s2 && bit),
      t.s1 ^^ ((positionCode p).s1 && bit)⟩ := by
  cases bit <;> simp [record, xorSlots]

/-- The procedure records the positions from 7 down, the equations name them from 3 up. -/
theorem xor_reverse : ∀ a b c : Bit, (a ^^ b ^^ c) = (c ^^ b ^^ a) := by decide

/-- Settles O23: slot by slot, the data positions whose code has a 1 there are those of the slot's equation. -/
theorem tripleProcedureAgrees : Obligations.TripleProcedureAgrees := by
  intro G
  have slots : parityTriple G = ⟨G.d7 ^^ G.d6 ^^ G.d5, G.d7 ^^ G.d6 ^^ G.d3, G.d7 ^^ G.d5 ^^ G.d3⟩ := by
    simp [parityTriple, record_eq, positionCode, Nat.testBit]
  rw [slots, xor_reverse G.d7 G.d6 G.d5, xor_reverse G.d7 G.d6 G.d3, xor_reverse G.d7 G.d5 G.d3]

/-! ### Validity -/

/-- The slots of the syndrome are the three parity checks (R46, R90). -/
theorem synd7_eq_parityChecks (C : Codeword) :
    synd7 C = ⟨C.p4 ^^ C.d5 ^^ C.d6 ^^ C.d7, C.p2 ^^ C.d3 ^^ C.d6 ^^ C.d7, C.p1 ^^ C.d3 ^^ C.d5 ^^ C.d7⟩ := by
  simp [synd7, record_eq, positionCode, Nat.testBit, bitAt, indexOf]

/-- A parity bit set to the exclusive or of the bits it covers makes their check even (R46, R70). -/
theorem parityCheck_even : ∀ a b c : Bit, ((a ^^ b ^^ c) ^^ a ^^ b ^^ c) = false := by decide

/-- The three parity checks of an encoded DataGroup are even (R76). -/
theorem enc4_parityChecks (G : DataGroup) :
    ((enc4 G).p1 ^^ (enc4 G).d3 ^^ (enc4 G).d5 ^^ (enc4 G).d7) = false ∧
    ((enc4 G).p2 ^^ (enc4 G).d3 ^^ (enc4 G).d6 ^^ (enc4 G).d7) = false ∧
    ((enc4 G).p4 ^^ (enc4 G).d5 ^^ (enc4 G).d6 ^^ (enc4 G).d7) = false :=
  ⟨parityCheck_even G.d3 G.d5 G.d7, parityCheck_even G.d3 G.d6 G.d7, parityCheck_even G.d5 G.d6 G.d7⟩

theorem synd7_enc4 (G : DataGroup) : synd7 (enc4 G) = ⟨false, false, false⟩ := by
  obtain ⟨check1, check2, check4⟩ := enc4_parityChecks G
  rw [synd7_eq_parityChecks, check1, check2, check4]

/-- The result is no longer than the operand's 7 bits, so MAXLEN refuses by the operand alone (R52, R53). -/
theorem answers_syndrome (C : Codeword) {s : State} (h : fits s.maxLen 7 = true) :
    Answers (.syndrome C) s (.bits (tripleBits (synd7 C))) :=
  respond_next h (fits_mono (by decide : 3 ≤ 7) h)

theorem toBits_injective : Function.Injective Codeword.toBits := fun C D h =>
  Option.some.inj (by rw [← ofBits_toBits C, h, ofBits_toBits])

/-- Settles O24: each word is the encoding of its DataGroup, whose checks are even and are the slots SYNDROME
answers. -/
theorem encodedWordsAreValid : Obligations.EncodedWordsAreValid := by
  intro S s hfits
  refine ⟨encodeBits S, answers_encode hfits, fun k C hk hC => ?_⟩
  obtain rfl : C = enc4 (groupAt S k) := toBits_injective (hC.trans (encodeBits_codeword S hk))
  obtain ⟨check1, check2, check4⟩ := enc4_parityChecks (groupAt S k)
  have oneWordFits : fits s.maxLen 7 = true := fits_mono (by omega) hfits
  have answer := answers_syndrome (enc4 (groupAt S k)) oneWordFits
  rw [synd7_enc4] at answer
  exact ⟨check1, check2, check4, answer⟩

end Sys2Proof.Machine
end

section
/-! INJECT read from its draws: the codewords a known sequence of draws makes, and draws for every codeword that differs
in at most one bit (R16, R82 to R85, R87). -/

namespace Sys2Proof.Machine

/-- INJECT on a seeded block: only the source and the observation change, by what `injectBits` makes of the source. -/
theorem exec_inject_of_seeded {S T : Bits} {s : State} {rs : RSState} (hseeded : s.block.seeded = true)
    (hfits : fits s.maxLen S.length = true) (hT : injectBits s.block.rs S = (T, rs)) :
    exec (.inject S) s = .next { s with
      block := ⟨true, rs⟩, observed := s.observed ++ [some { result := .bits T }] } := by
  rw [exec_inject_of_fits hfits, State.seedSource_of_seeded hseeded, hT, ← hseeded]
  rfl

/-! ### From draws to codewords -/

/-- What the draws `w` make of a codeword: the bit the second names is negated if the first is 4 (R82, R83). -/
def drawnWord (C : Codeword) (w : Draw × Draw) : Codeword :=
  if w.1 = 4 then flipAt C w.2 else C

theorem injectWord_wordDraws (C : Codeword) (w : Draw × Draw) (later : List Draw) (n : Nat) :
    injectWord ⟨wordDraws w ++ later, n⟩ C = (drawnWord C w, ⟨later, n⟩) := by
  by_cases h : w.1 = 4 <;> simp [injectWord, wordDraws, drawnWord, sentinel, h]

/-- The words take their draws in ascending order, and the draws behind them stay queued (R85). -/
theorem injectWords_wordDraws (later : List Draw) (n : Nat) :
    ∀ (Cs : List Codeword) (ws : List (Draw × Draw)), ws.length = Cs.length →
      injectWords ⟨ws.flatMap wordDraws ++ later, n⟩ Cs = (List.zipWith drawnWord Cs ws, ⟨later, n⟩)
  | [], [], _ => rfl
  | C :: Cs, w :: ws, h => by
    have rest := injectWords_wordDraws later n Cs ws (Nat.succ.inj h)
    simp only [injectWords, List.flatMap_cons, List.append_assoc, injectWord_wordDraws, rest, List.zipWith_cons_cons]

theorem injectBits_wordDraws {Cs : List Codeword} {tail : Bits} (ht : tail.length < 7) {ws : List (Draw × Draw)}
    (hws : ws.length = Cs.length) (later : List Draw) (n : Nat) :
    injectBits ⟨ws.flatMap wordDraws ++ later, n⟩ (Cs.flatMap Codeword.toBits ++ tail) =
      ((List.zipWith drawnWord Cs ws).flatMap Codeword.toBits ++ tail, ⟨later, n⟩) := by
  rw [injectBits_words _ _ _ ht, injectWords_wordDraws later n Cs ws hws]

theorem getElem?_drawnWord (C : Codeword) (w : Draw × Draw) {i : Nat} (hi : i < 7) :
    (drawnWord C w).toBits[i]? =
      if w.1 = 4 ∧ w.2.val = i then C.toBits[i]?.map (!·) else C.toBits[i]? := by
  by_cases h : w.1 = 4
  · simp [drawnWord, h, getElem?_flipAt C w.2 i hi]
  · simp [drawnWord, h]

/-- Settles O26: the queue feeds the codewords one by one, and word `k` of the result is `drawnWord` of word `k`. -/
theorem injectFollowsItsDraws : Obligations.InjectFollowsItsDraws := by
  intro S s ws later hseeded hws hqueued hfits
  obtain ⟨Cs, tail, rfl, ht⟩ := exists_words_append S
  have hlen : ws.length = Cs.length := hws.trans (words_append_length_div Cs ht)
  have hzip : (List.zipWith drawnWord Cs ws).length = Cs.length := by simp [hlen]
  have hrs : s.block.rs = ⟨ws.flatMap wordDraws ++ later, s.block.rs.spent⟩ := by rw [← hqueued]
  have hT := injectBits_wordDraws ht hlen later s.block.rs.spent
  refine ⟨_, exec_inject_of_seeded hseeded hfits ((congrArg (injectBits · _) hrs).trans hT), ?_,
    sameTrailingBits_of_words ht hzip, fun k i hk hi => ?_⟩
  · simp only [List.length_append, length_flatMap_of_width toBits_length, hzip]
  · have hC : k < Cs.length := hlen ▸ hk
    rw [getElem?_words_append _ tail (hzip.symm ▸ hC) hi, getElem?_words_append Cs tail hC hi, List.getElem_zipWith,
      getElem?_drawnWord _ _ hi]

/-! ### From codewords to draws -/

theorem eq_of_getElem?_toBits {C D : Codeword} (h : ∀ i < 7, C.toBits[i]? = D.toBits[i]?) : C = D :=
  toBits_injective (List.ext_getElem?' h)

/-- Where two codewords differ, one has the other's bit negated. -/
theorem getElem?_toBits_of_ne {C D : Codeword} {i : Nat} (hi : i < 7) (h : D.toBits[i]? ≠ C.toBits[i]?) :
    D.toBits[i]? = C.toBits[i]?.map (!·) := by
  have hC : i < C.toBits.length := hi
  have hD : i < D.toBits.length := hi
  rw [List.getElem?_eq_getElem hC, List.getElem?_eq_getElem hD, ne_eq, Option.some_inj] at h
  rw [List.getElem?_eq_getElem hC, List.getElem?_eq_getElem hD, Option.map_some, Bool.eq_not.2 h]

/-- The converse of `WithinOneFlip.index_unique`: a word that differs at one index at most is that word, or the flip at
an index where it differs. -/
theorem withinOneFlip_of_index_unique {C D : Codeword}
    (h : ∀ i j, i < 7 → j < 7 → D.toBits[i]? ≠ C.toBits[i]? → D.toBits[j]? ≠ C.toBits[j]? → i = j) :
    WithinOneFlip C D := by
  by_cases differs : ∃ a < 7, D.toBits[a]? ≠ C.toBits[a]?
  · obtain ⟨a, ha, hda⟩ := differs
    refine .inr ⟨⟨a, ha⟩, eq_of_getElem?_toBits fun j hj => ?_⟩
    rw [getElem?_flipAt C _ j hj]
    split
    next haj => exact getElem?_toBits_of_ne hj (haj ▸ hda)
    next haj => exact Decidable.byContradiction fun hdj => haj (h a j ha hj hda hdj)
  · exact .inl (eq_of_getElem?_toBits fun i hi => Decidable.byContradiction fun hd => differs ⟨i, hi, hd⟩)

/-- A choice of draws for each codeword that at most one flip separates from its original. -/
theorem WithinOneFlip.exists_draws {C D : Codeword} (h : WithinOneFlip C D) : ∃ w, D = drawnWord C w := by
  obtain rfl | ⟨i, rfl⟩ := h
  · exact ⟨(0, 0), rfl⟩
  · exact ⟨(4, i), rfl⟩

theorem exists_draws_of_withinOneFlip {Cs Ds : List Codeword} (h : List.Forall₂ WithinOneFlip Cs Ds) :
    ∃ ws : List (Draw × Draw), ws.length = Cs.length ∧ Ds = List.zipWith drawnWord Cs ws := by
  induction h with
  | nil => exact ⟨[], rfl, rfl⟩
  | cons hword _ ih =>
    obtain ⟨w, rfl⟩ := hword.exists_draws
    obtain ⟨ws, hlen, rfl⟩ := ih
    exact ⟨w :: ws, congrArg (· + 1) hlen, rfl⟩

/-- Element `i` past whole words is element `i` of the tail. -/
theorem getElem?_tail (Cs : List Codeword) (tail : Bits) (i : Nat) :
    (Cs.flatMap Codeword.toBits ++ tail)[7 * Cs.length + i]? = tail[i]? := by
  rw [← length_flatMap_of_width toBits_length Cs, List.getElem?_append_right (Nat.le_add_right _ _),
    Nat.add_sub_cancel_left]

/-- The converse of the two shape lemmas: a sequence of the shape of R87 is words within one flip of the operand's,
then the operand's own tail. -/
theorem exists_words_of_shape {Cs : List Codeword} {tail T : Bits} (ht : tail.length < 7)
    (hone : AtMostOneErrorPerWord (Cs.flatMap Codeword.toBits ++ tail) T)
    (htrailing : SameTrailingBits (Cs.flatMap Codeword.toBits ++ tail) T) :
    ∃ Ds, T = Ds.flatMap Codeword.toBits ++ tail ∧ List.Forall₂ WithinOneFlip Cs Ds := by
  obtain ⟨Ds, tail', rfl, ht'⟩ := exists_words_append T
  obtain ⟨hlength, hunique⟩ := hone
  have hcount : Cs.length = Ds.length := by
    rw [← words_append_length_div Cs ht, ← words_append_length_div Ds ht', hlength]
  have htail : tail' = tail := List.ext_getElem? fun i => by
    have hi := htrailing (7 * Cs.length + i) (by rw [words_append_length_div Cs ht]; omega)
    rwa [getElem?_tail, hcount, getElem?_tail] at hi
  subst htail
  refine ⟨Ds, rfl, List.forall₂_iff_get.2 ⟨hcount, fun k hC hD => withinOneFlip_of_index_unique ?_⟩⟩
  intro i j hi hj hdi hdj
  have hk : k < (Cs.flatMap Codeword.toBits ++ tail').length / 7 := words_append_length_div Cs ht ▸ hC
  refine hunique k i j hk hi hj ?_ ?_
  · rwa [getElem?_words_append Cs _ hC hi, getElem?_words_append Ds _ hD hi]
  · rwa [getElem?_words_append Cs _ hC hj, getElem?_words_append Ds _ hD hj]

/-- Settles O29: queue draws that make each codeword of `T` from that of `S`, and INJECT follows them. -/
theorem everyAllowedNoiseIsPossible : Obligations.EveryAllowedNoiseIsPossible := by
  intro S T hone htrailing
  obtain ⟨Cs, tail, rfl, ht⟩ := exists_words_append S
  obtain ⟨Ds, rfl, hflips⟩ := exists_words_of_shape ht hone htrailing
  obtain ⟨ws, hlen, rfl⟩ := exists_draws_of_withinOneFlip hflips
  refine ⟨⟨ws.flatMap wordDraws ++ [], 0⟩, fun s hblock hfits => ?_⟩
  have hT := injectBits_wordDraws ht hlen [] 0
  exact ⟨_, exec_inject_of_seeded (congrArg Block.seeded hblock) hfits
    ((congrArg (fun block => injectBits block.rs _) hblock).trans hT), rfl⟩

end Sys2Proof.Machine
end

section
/-! The HammingDecoder: the syndrome in closed form and under a single negated bit, the data bits of one corrected word,
and DECODE's result word by word (R90 to R100). -/

namespace Sys2Proof.Machine

/-! ### One word -/

/-- The parity checks name the bits from the parity bit up, the closed form of R91 from position 7 down. -/
theorem xor_reverse_four : ∀ a b c d : Bit, (a ^^ b ^^ c ^^ d) = (d ^^ c ^^ b ^^ a) := by decide

/-- The slots of the syndrome in the order R91 writes them. -/
theorem synd7_closedForm (C : Codeword) :
    synd7 C = ⟨C.d7 ^^ C.d6 ^^ C.d5 ^^ C.p4, C.d7 ^^ C.d6 ^^ C.d3 ^^ C.p2, C.d7 ^^ C.d5 ^^ C.d3 ^^ C.p1⟩ := by
  rw [synd7_eq_parityChecks, xor_reverse_four C.p4, xor_reverse_four C.p2, xor_reverse_four C.p1]

/-- A data bit is negated exactly when the syndrome's slots spell its Hamming position (R94, R95). -/
theorem dec7_of_synd7 {C : Codeword} {s4 s2 s1 : Bit} (h : synd7 C = ⟨s4, s2, s1⟩) :
    dec7 C = ⟨C.d7 ^^ (s4 && s2 && s1), C.d6 ^^ (s4 && s2 && !s1), C.d5 ^^ (s4 && !s2 && s1),
      C.d3 ^^ (!s4 && s2 && s1)⟩ := by
  rw [dec7, correct7, syndInt, h]
  cases s4 <;> cases s2 <;> cases s1 <;> simp [tripleInt, indexOf, flipAt, extract4]

/-- The syndrome of a valid codeword is 0 (R46, R93). -/
theorem synd7_of_validCodeword {C : Codeword} (h : validCodeword C = true) : synd7 C = ⟨false, false, false⟩ := by
  simp only [validCodeword, Bool.and_eq_true, Bool.not_eq_true'] at h
  obtain ⟨⟨check1, check2⟩, check4⟩ := h
  rw [synd7_eq_parityChecks, check1, check2, check4]

/-- Negating a bit adds the code of its Hamming position to the syndrome (R90, R91). -/
theorem synd7_flipAt (C : Codeword) (i : Fin 7) :
    synd7 (flipAt C i) = xorSlots (synd7 C) (positionCode (7 - i.val)) := by
  simp only [synd7_eq_parityChecks]
  fin_cases i <;> simp [flipAt, xorSlots, positionCode, Nat.testBit]

theorem xorSlots_zero_left (t : Triple) : xorSlots ⟨false, false, false⟩ t = t := by simp [xorSlots]

/-- On a single negated bit of a valid codeword the syndrome is the bit's Hamming position (R93). -/
theorem syndInt_flipAt_of_validCodeword {C : Codeword} (h : validCodeword C = true) (i : Fin 7) :
    syndInt (flipAt C i) = 7 - i.val := by
  rw [syndInt, synd7_flipAt, synd7_of_validCodeword h, xorSlots_zero_left]
  fin_cases i <;> rfl

theorem flipAt_flipAt (C : Codeword) (i : Fin 7) : flipAt (flipAt C i) i = C := by
  fin_cases i <;> simp [flipAt]

/-- Positions and array indices count in opposite directions (R43). -/
theorem indexOf_seven_sub (i : Fin 7) : indexOf (7 - i.val) = i := by revert i; decide

/-- The position the syndrome names is the one negated, and negating it again gives the codeword back (R100). -/
theorem correct7_flipAt_of_validCodeword {C : Codeword} (h : validCodeword C = true) (i : Fin 7) :
    correct7 (flipAt C i) = C := by
  have named : syndInt (flipAt C i) ≠ 0 := by rw [syndInt_flipAt_of_validCodeword h]; omega
  rw [correct7, if_neg named, syndInt_flipAt_of_validCodeword h, indexOf_seven_sub, flipAt_flipAt]

/-! ### The words of an operand -/

/-- Word `k` of a sequence, the slice from element `7*k` (R42, R98). -/
def wordAt (S : Bits) (k : Nat) : Codeword :=
  ⟨S.getD (7 * k) false, S.getD (7 * k + 1) false, S.getD (7 * k + 2) false, S.getD (7 * k + 3) false,
    S.getD (7 * k + 4) false, S.getD (7 * k + 5) false, S.getD (7 * k + 6) false⟩

theorem getElem_wordWindows :
    ∀ (S : Bits) (k : Nat) (hk : k < (wordWindows S).length), (wordWindows S)[k] = wordAt S k
  | _ :: _ :: _ :: _ :: _ :: _ :: _ :: _, 0, _ => rfl
  | _ :: _ :: _ :: _ :: _ :: _ :: _ :: rest, k + 1, hk => getElem_wordWindows rest k (Nat.lt_of_succ_lt_succ hk)
  | [], _, hk | [_], _, hk | [_, _], _, hk | [_, _, _], _, hk | [_, _, _, _], _, hk | [_, _, _, _, _], _, hk
  | [_, _, _, _, _, _], _, hk => absurd hk (Nat.not_lt_zero _)

/-- DataGroup `k` of the result is decoded from word `k` of the operand (R97, R98). -/
theorem decodeBits_group (S : Bits) {k : Nat} (hk : k < S.length / 7) :
    ((decodeBits S).drop (4 * k)).take 4 = groupBits (dec7 (wordAt S k)) := by
  have inside : k < (wordWindows S).length := (wordWindows_length S).symm ▸ hk
  rw [decodeBits, drop_take_flatMap_of_width (fun C => groupBits_length (dec7 C)) _ k inside, getElem_wordWindows]

theorem decodeBits_toBits (C : Codeword) : decodeBits C.toBits = groupBits (dec7 C) := rfl

/-- The result is no longer than the operand, so MAXLEN refuses by the operand alone (R52, R53). -/
theorem answers_decode {S : Bits} {s : State} (h : fits s.maxLen S.length = true) :
    Answers (.decode S) s (.bits (decodeBits S)) := by
  have shorter : (decodeBits S).length ≤ S.length := by rw [decodeBits_length]; omega
  exact respond_next h (fits_mono shorter h)

/-- Settles O33: group `k` is decoded from word `k`, whose syndrome is the closed form of its bits. -/
theorem decodeResult : Obligations.DecodeResult := by
  intro S s hfits
  refine ⟨decodeBits S, answers_decode hfits, decodeBits_length S, fun k hk => ?_⟩
  rw [decodeBits_group S hk, dec7_of_synd7 (synd7_closedForm (wordAt S k))]
  rfl

/-- Settles O35: the correction undoes the one flip, so the data bits extracted are the codeword's. -/
theorem singleErrorIsCorrected : Obligations.SingleErrorIsCorrected := by
  intro C i s hvalid hfits
  have corrected := correct7_flipAt_of_validCodeword hvalid i
  have data : decodeBits (flipAt C i).toBits = [C.d7, C.d6, C.d5, C.d3] := by
    rw [decodeBits_toBits, dec7, corrected]
    rfl
  exact ⟨corrected, data ▸ answers_decode hfits⟩

end Sys2Proof.Machine
end

section
/-! No exception: whatever the host does next, the step answers a next state (R120, R122, R133, R155). -/

namespace Sys2Proof.Machine

/-- With no action pending the block is idle (R133, log entry 2). -/
theorem step_of_idle {s : State} (h : s.pending = []) : step s = .next s := by
  simp [step, advance, h]

/-- A request is served or, where it is ill-formed, passed over; `exec`'s refusals end here (R122, R155). -/
theorem serve_answers (r : Request) (s : State) : ∃ t, serve r s = .next t := by
  obtain ⟨_, _, t, _, served⟩ | passed := serve_cases r s
  · exact ⟨t, served⟩
  · exact ⟨s.noResponse, passed⟩

/-- Both actions of the host answer (R154). -/
theorem perform_answers (a : HostAction) (s : State) : ∃ t, perform a s = .next t := by
  cases a with
  | reset => exact ⟨s.hostReset, rfl⟩
  | request r => exact serve_answers r s

/-- Settles O12: the step is idle or performs the first pending action, and both answer. -/
theorem everyStepAnswers : Obligations.EveryStepAnswers := by
  intro s
  cases hp : s.pending with
  | nil => exact ⟨s, step_of_idle hp⟩
  | cons a later =>
    obtain ⟨t, ht⟩ := perform_answers a { s with pending := later }
    exact ⟨t, (step_of_pending hp).trans ht⟩

end Sys2Proof.Machine
end

section
/-! Requests: the decoder as a table read both ways, the encoder against it, and the refusal of every ill-formed request
(R49, R51 to R53, R120, R122). -/

namespace Sys2Proof

open Machine

/-! ### The decoder -/

/-- `r` is a request of operation `i`: its `op`, its operand and, for PACK alone, its `pad` (R51, R52). -/
def Request.Spells (r : Request) : Instr → Prop
  | .unpack B => r.op = 0 ∧ r.operand = .bytes B
  | .pack pad S => r.op = 1 ∧ r.pad = pad ∧ r.operand = .bits S
  | .encode S => r.op = 2 ∧ r.operand = .bits S
  | .inject S => r.op = 3 ∧ r.operand = .bits S
  | .syndrome C => r.op = 4 ∧ r.operand = .bits C.toBits
  | .decode S => r.op = 5 ∧ r.operand = .bits S

theorem onBytes_eq_ok {k : Bytes → Instr} {x : Payload} {i : Instr} :
    onBytes k x = .ok i ↔ ∃ B, x = .bytes B ∧ k B = i := by
  cases x <;> simp [onBytes]

theorem onBits_eq_ok {k : Bits → Instr} {x : Payload} {i : Instr} :
    onBits k x = .ok i ↔ ∃ S, x = .bits S ∧ k S = i := by
  cases x <;> simp [onBits]

theorem onCodeword_eq_ok {k : Codeword → Instr} {x : Payload} {i : Instr} :
    onCodeword k x = .ok i ↔ ∃ C, x = .bits C.toBits ∧ k C = i := by
  cases x with
  | bytes B => simp [onCodeword]
  | bits S =>
    cases hC : Codeword.ofBits S with
    | some C =>
      obtain rfl := ofBits_eq_some.1 hC
      simp [onCodeword, toBits_injective.eq_iff]
    | none =>
      have noWord : ∀ C : Codeword, S ≠ C.toBits := fun C h => by simp [h] at hC
      simp [onCodeword, hC, noWord]

/-- The decoder reads `i` from the requests of `i` and from no other. -/
theorem decodeRequest_eq_ok_iff {r : Request} {i : Instr} : decodeRequest r = .ok i ↔ r.Spells i := by
  constructor
  · intro h
    unfold decodeRequest at h
    split at h
    case h_1 hop => obtain ⟨B, hx, rfl⟩ := onBytes_eq_ok.1 h; exact ⟨hop, hx⟩
    case h_2 hop => obtain ⟨S, hx, rfl⟩ := onBits_eq_ok.1 h; exact ⟨hop, rfl, hx⟩
    case h_3 hop => obtain ⟨S, hx, rfl⟩ := onBits_eq_ok.1 h; exact ⟨hop, hx⟩
    case h_4 hop => obtain ⟨S, hx, rfl⟩ := onBits_eq_ok.1 h; exact ⟨hop, hx⟩
    case h_5 hop => obtain ⟨C, hx, rfl⟩ := onCodeword_eq_ok.1 h; exact ⟨hop, hx⟩
    case h_6 hop => obtain ⟨S, hx, rfl⟩ := onBits_eq_ok.1 h; exact ⟨hop, hx⟩
    case h_7 => cases h
  · intro h
    cases i with
    | pack pad S => obtain ⟨hop, hpad, hx⟩ := h; simp [decodeRequest, hop, hpad, hx, onBits]
    | _ => obtain ⟨hop, hx⟩ := h; simp [decodeRequest, hop, hx, onBytes, onBits, onCodeword]

/-! ### The encoder -/

theorem encodeRequest_spells (i : Instr) : (encodeRequest i).Spells i := by
  cases i with
  | pack pad S => cases pad <;> simp [Request.Spells, encodeRequest, Request.op, Request.pad]
  | _ => exact ⟨rfl, rfl⟩

/-- Clearing `ctl[3]` leaves the word whose value is `op` (R49). -/
theorem clear_pad_eq_ofNat_op (r : Request) : r.ctl &&& 0b0111#4 = BitVec.ofNat 4 r.op := by
  have low : ∀ ctl : BitVec 4, ctl &&& 0b0111#4 = BitVec.ofNat 4 (ctl.toNat % 8) := by decide
  exact low r.ctl

/-- `op` and `pad` are the whole control word (R49). -/
theorem ctl_of_op_one (r : Request) (h : r.op = 1) : r.ctl = if r.pad then 0x9#4 else 0x1#4 := by
  have word : ∀ ctl : BitVec 4, ctl.toNat % 8 = 1 → ctl = if ctl.getLsbD 3 then 0x9#4 else 0x1#4 := by decide
  exact word r.ctl h

/-- A request of `i` is the encoder's, but for `ctl[3]` where it is ignored (R49, log entry 9). -/
theorem encodeRequest_of_spells {r : Request} {i : Instr} (h : r.Spells i) :
    encodeRequest i = ⟨if r.op = 1 then r.ctl else r.ctl &&& 0b0111#4, r.operand⟩ := by
  cases i with
  | pack pad S =>
    obtain ⟨hop, rfl, hx⟩ := h
    rw [if_pos hop, ctl_of_op_one r hop, hx]
    cases r.pad <;> rfl
  | _ =>
    obtain ⟨hop, hx⟩ := h
    rw [clear_pad_eq_ofNat_op, hop, hx]
    rfl

/-- Settles O2: encoder and decoder both agree with the relation `Request.Spells` of requests and operations. -/
theorem decodeAndEncodeAgree : Obligations.DecodeAndEncodeAgree :=
  ⟨fun i => decodeRequest_eq_ok_iff.2 (encodeRequest_spells i),
    fun _ _ h => encodeRequest_of_spells (decodeRequest_eq_ok_iff.1 h)⟩

/-- Settles O1: each word's `op`, `pad` and operand type are a row of the map, and 6 and 7 are in no row. -/
theorem controlWordsDecode : Obligations.ControlWordsDecode := by
  unfold Obligations.ControlWordsDecode
  decide

/-! ### The length checks -/

theorem fits_eq_false_iff {maxLen : Option Nat} {n : Nat} :
    fits maxLen n = false ↔ ∃ m, maxLen = some m ∧ m < n := by
  cases maxLen <;> simp [fits]

theorem wellFormed_iff {maxLen : Option Nat} {i : Instr} :
    i.WellFormed maxLen ↔ fits maxLen i.operandLength = true ∧ fits maxLen i.resultLength = true := by
  unfold Instr.WellFormed Instr.check
  cases fits maxLen i.operandLength <;> cases fits maxLen i.resultLength <;> simp

/-- Every operation ends in `respond`, with the operand and the result of R52, and only PACK answers bytes. -/
theorem exec_eq_respond_lengths (i : Instr) (s : State) :
    ∃ x y t, exec i s = respond x y s t ∧ x.length = i.operandLength ∧ y.length = i.resultLength ∧
      ((∃ B, y = .bytes B) ↔ ∃ pad S, i = .pack pad S) ∧ t.pending = s.pending ∧ t.observed = s.observed := by
  cases i with
  | inject S => exact ⟨_, _, _, rfl, rfl, injectBits_length _ S, by simp, by simp, by simp⟩
  | unpack B => exact ⟨_, _, s, rfl, rfl, unpackBits_length B, by simp, rfl, rfl⟩
  | pack pad S =>
    refine ⟨_, _, s, rfl, rfl, (packBits_length pad S).trans ?_, by simp, rfl, rfl⟩
    cases pad <;> rfl
  | encode S => exact ⟨_, _, s, rfl, rfl, encodeBits_length S, by simp, rfl, rfl⟩
  | syndrome C => exact ⟨_, _, s, rfl, rfl, rfl, by simp, rfl, rfl⟩
  | decode S => exact ⟨_, _, s, rfl, rfl, decodeBits_length S, by simp, rfl, rfl⟩

/-- The check on the operation is the one `respond` makes on operand and result (R37, R53). -/
theorem exec_of_check_eq_some {i : Instr} {s : State} {why : IllFormed} (h : i.check s.maxLen = some why) :
    exec i s = .refused (.illFormed why) := by
  obtain ⟨x, y, t, he, hx, hy, -⟩ := exec_eq_respond_lengths i s
  have overlong_eq : overlong s.maxLen x y = some why := by rw [← h, overlong, Instr.check, hx, hy]
  rw [he, respond, overlong_eq]

theorem exec_of_wellFormed {i : Instr} {s : State} (h : i.WellFormed s.maxLen) :
    ∃ t y, exec i s = .next (State.reply t y) ∧ t.pending = s.pending ∧ t.observed = s.observed ∧
      y.length = i.resultLength ∧ ((∃ B, y = .bytes B) ↔ ∃ pad S, i = .pack pad S) := by
  obtain ⟨x, y, t, he, hx, hy, htype, hpending, hobserved⟩ := exec_eq_respond_lengths i s
  obtain ⟨hxfits, hyfits⟩ := wellFormed_iff.1 h
  exact ⟨t, y, he.trans (respond_next (hx ▸ hxfits) (hy ▸ hyfits)), hpending, hobserved, hy, htype⟩

/-- Settles O5: `exec` follows the check both ways. -/
theorem completesExactlyWhenWellFormed : Obligations.CompletesExactlyWhenWellFormed := by
  intro i s
  constructor
  · rintro ⟨t, ht⟩
    cases hcheck : i.check s.maxLen with
    | none => exact hcheck
    | some why => rw [exec_of_check_eq_some hcheck] at ht; cases ht
  · intro h
    obtain ⟨t, y, he, -⟩ := exec_of_wellFormed h
    exact ⟨_, he⟩

/-- Settles O6: the check looks at the operand first (log entry 11). -/
theorem overlongIsRefusedByName : Obligations.OverlongIsRefusedByName := by
  intro i s m hm
  constructor
  · intro hoperand
    have tooLong : fits s.maxLen i.operandLength = false := fits_eq_false_iff.2 ⟨m, hm, hoperand⟩
    exact exec_of_check_eq_some (by simp [Instr.check, tooLong])
  · rintro ⟨hoperand, hresult⟩
    have operandFits : fits s.maxLen i.operandLength = true := by simpa [hm, fits] using hoperand
    have tooLong : fits s.maxLen i.resultLength = false := fits_eq_false_iff.2 ⟨m, hm, hresult⟩
    exact exec_of_check_eq_some (by simp [Instr.check, operandFits, tooLong])

/-! ### Ill-formed requests -/

/-- The lengths that R53 bounds for a request are those of its operation. -/
theorem Request.Spells.lengths {r : Request} {i : Instr} (h : r.Spells i) :
    r.operand.length = i.operandLength ∧ requestResultLength r = i.resultLength := by
  cases i with
  | pack pad S =>
    obtain ⟨hop, rfl, hx⟩ := h
    rw [requestResultLength, hop, hx]
    cases hpad : r.pad <;> exact ⟨rfl, rfl⟩
  | _ =>
    obtain ⟨hop, hx⟩ := h
    rw [requestResultLength, hop, hx]
    exact ⟨rfl, rfl⟩

theorem Request.Spells.op_eq_one_iff {r : Request} {i : Instr} (h : r.Spells i) :
    r.op = 1 ↔ ∃ pad S, i = .pack pad S := by
  cases i with
  | pack pad S => simp [h.1]
  | _ => simp [h.1]

/-- No clause of R53 that names `op` or the operand's type holds of a request that is decoded. -/
theorem Request.Spells.overlong_of_illFormed {r : Request} {i : Instr} {maxLen : Option Nat} (h : r.Spells i)
    (hill : RequestIllFormed maxLen r) :
    ∃ m, maxLen = some m ∧ (m < r.operand.length ∨ m < requestResultLength r) := by
  unfold RequestIllFormed at hill
  cases i with
  | pack pad S => obtain ⟨hop, -, hx⟩ := h; simpa [hop, hx] using hill
  | _ => obtain ⟨hop, hx⟩ := h; simpa [hop, hx, Payload.length] using hill

/-- A request outside every clause of R53 is one of the six rows of the map (R51, R52). -/
theorem exists_spells_of_not_illFormed {r : Request} {maxLen : Option Nat} (h : ¬ RequestIllFormed maxLen r) :
    ∃ i, r.Spells i := by
  simp only [RequestIllFormed, not_or] at h
  obtain ⟨hop, hbits, hbytes, hword, -⟩ := h
  cases hx : r.operand with
  | bytes B =>
    have zero : r.op = 0 := Decidable.byContradiction fun hne => hbytes ⟨hne, B, hx⟩
    exact ⟨.unpack B, zero, hx⟩
  | bits S =>
    have nonzero : r.op ≠ 0 := fun hzero => hbits ⟨hzero, S, hx⟩
    obtain hop | hop | hop | hop | hop : r.op = 1 ∨ r.op = 2 ∨ r.op = 3 ∨ r.op = 4 ∨ r.op = 5 := by omega
    · exact ⟨.pack r.pad S, hop, rfl, hx⟩
    · exact ⟨.encode S, hop, hx⟩
    · exact ⟨.inject S, hop, hx⟩
    · cases hC : Codeword.ofBits S with
      | some C => exact ⟨.syndrome C, hop, hx.trans (congrArg _ (ofBits_eq_some.1 hC))⟩
      | none => exact absurd ⟨hop, by simpa [hx, Payload.length] using ofBits_eq_none.1 hC⟩ hword
    · exact ⟨.decode S, hop, hx⟩

theorem Request.Spells.wellFormed_iff {r : Request} {i : Instr} {maxLen : Option Nat} (h : r.Spells i) :
    i.WellFormed maxLen ↔ ¬ RequestIllFormed maxLen r := by
  obtain ⟨hoperand, hresult⟩ := h.lengths
  rw [Sys2Proof.wellFormed_iff, ← hoperand, ← hresult, fits_iff, fits_iff]
  constructor
  · rintro ⟨hx, hy⟩ hill
    obtain ⟨m, hm, hlong | hlong⟩ := h.overlong_of_illFormed hill
    · exact absurd (hx m hm) (by omega)
    · exact absurd (hy m hm) (by omega)
  · intro hwell
    simp only [RequestIllFormed, not_or, not_exists, not_and, not_lt] at hwell
    obtain ⟨-, -, -, -, hlengths⟩ := hwell
    exact ⟨fun m hm => (hlengths m hm).1, fun m hm => (hlengths m hm).2⟩

/-! ### The step on a request -/

/-- Where the operation answers, so does the step (R154). -/
theorem serve_of_next {r : Request} {i : Instr} {s t : State} (hd : decodeRequest r = .ok i)
    (he : exec i s = .next t) : serve r s = .next t := by
  simp [serve, hd, he]

/-- Every refusal of an operation is for length, and leaves "no response" (R122, R155). -/
theorem serve_of_refused {r : Request} {i : Instr} {s : State} {why : Refusal} (hd : decodeRequest r = .ok i)
    (he : exec i s = .refused why) : serve r s = .next s.noResponse := by
  obtain ⟨t, y, hnext, -⟩ | ⟨reason, hreason⟩ := exec_cases i s
  · rw [he] at hnext; cases hnext
  · simp [serve, hd, hreason]

theorem serve_of_illFormed {r : Request} {s : State} (h : RequestIllFormed s.maxLen r) :
    serve r s = .next s.noResponse := by
  cases hd : decodeRequest r with
  | error e => simp [serve, hd]
  | ok i =>
    have notWellFormed : ¬ i.WellFormed s.maxLen := fun hwell =>
      (decodeRequest_eq_ok_iff.1 hd).wellFormed_iff.1 hwell h
    obtain ⟨why, hwhy⟩ := Option.ne_none_iff_exists'.1 notWellFormed
    exact serve_of_refused hd (exec_of_check_eq_some hwhy)

/-- Settles O7: a step is the service of the first request, which is `exec` of what it decodes to. -/
theorem stepRunsDecodedRequest : Obligations.StepRunsDecodedRequest := by
  intro s r later i hp hd
  rw [step_of_pending hp]
  exact ⟨fun t he => serve_of_next hd he, fun why he => serve_of_refused hd he⟩

/-- Settles O3: an ill-formed request is refused by the decoder or by the length check of its operation. -/
theorem illFormedRequestHasNoEffect : Obligations.IllFormedRequestHasNoEffect := by
  intro s r later hp hill
  rw [step_of_pending hp]
  exact serve_of_illFormed hill

/-- Settles O4: a request that is not ill-formed is one of the map, and its operation answers as R52 says. -/
theorem wellFormedRequestIsServed : Obligations.WellFormedRequestIsServed := by
  intro s r later hp hwell
  obtain ⟨i, hi⟩ := exists_spells_of_not_illFormed hwell
  obtain ⟨t, y, he, hpending, hobserved, hlength, htype⟩ :=
    exec_of_wellFormed (s := { s with pending := later }) (hi.wellFormed_iff.2 hwell)
  obtain ⟨-, hresult⟩ := hi.lengths
  have hstep : step s = .next (t.reply y) :=
    (step_of_pending hp).trans (serve_of_next (decodeRequest_eq_ok_iff.2 hi) he)
  refine ⟨_, y, hstep, hpending, ?_, hlength.trans hresult.symm, hi.op_eq_one_iff.trans htype.symm⟩
  rw [State.reply_observed, hobserved]

end Sys2Proof
end

section
/-! Steps and runs: what one step can do, the fields it leaves alone, and the invariants that follow (R15, R17, R140,
R143, R155). -/

namespace Sys2Proof.Machine

/-! ### One step -/

/-- Serving a request records "no response", or the response of the decoded operation on a state in which at most the
random source has moved (R122, R155). -/
theorem serve_next_cases {r : Request} {s t : State} (h : serve r s = .next t) :
    t = s.noResponse ∨ ∃ i u y, decodeRequest r = .ok i ∧ t = State.reply u y ∧ fits s.maxLen y.length = true ∧
      u.maxLen = s.maxLen ∧ u.pending = s.pending ∧ u.observed = s.observed ∧ SourceMoved i s u := by
  obtain ⟨i, hd, t', he, hs⟩ | hs := serve_cases r s
  · obtain ⟨u, y, hu, hy, hframe⟩ | ⟨why, hwhy⟩ := exec_cases i s
    · rw [hs] at h
      cases h
      rw [he] at hu
      cases hu
      exact .inr ⟨i, u, y, hd, rfl, hy, hframe⟩
    · rw [he] at hwhy; cases hwhy
  · rw [hs] at h
    cases h
    exact .inl rfl

/-- Everything one step can do: nothing when idle, a reset, or the service of one request (R133, R154). -/
theorem step_next_cases {s t : State} (h : step s = .next t) :
    (s.pending = [] ∧ t = s) ∨
    ∃ later, (s.pending = .reset :: later ∧ t = State.hostReset { s with pending := later }) ∨
      ∃ r, s.pending = .request r :: later ∧ serve r { s with pending := later } = .next t := by
  cases hp : s.pending with
  | nil =>
    rw [step_of_idle hp] at h
    cases h
    exact .inl ⟨rfl, rfl⟩
  | cons a later =>
    rw [step_of_pending hp] at h
    cases a with
    | reset => cases h; exact .inr ⟨later, .inl ⟨rfl, rfl⟩⟩
    | request r => exact .inr ⟨later, .inr ⟨r, rfl, h⟩⟩

/-- One new entry of the observation: "no response", or a response that MAXLEN allows (R37, R155). -/
def EntryAllowed (maxLen : Option Nat) (entry : Option Response) : Prop :=
  ∀ y, entry = some ⟨y⟩ → fits maxLen y.length = true

/-- Serving a request adds one entry to the observation and touches no other field of the host's side. -/
theorem serve_frame {r : Request} {s t : State} (h : serve r s = .next t) :
    t.maxLen = s.maxLen ∧ t.pending = s.pending ∧
      ∃ entry, t.observed = s.observed ++ [entry] ∧ EntryAllowed s.maxLen entry := by
  obtain rfl | ⟨i, u, y, -, rfl, hy, hmaxLen, hpending, hobserved, -⟩ := serve_next_cases h
  · exact ⟨rfl, rfl, none, rfl, by simp [EntryAllowed]⟩
  · exact ⟨hmaxLen, hpending, some ⟨y⟩, by simp [hobserved], by simpa [EntryAllowed] using hy⟩

/-- A step takes the first pending action and adds an entry to the observation exactly if that is a request. -/
theorem step_frame {s t : State} (h : step s = .next t) :
    t.maxLen = s.maxLen ∧ t.pending = s.pending.tail ∧
      ∃ new, t.observed = s.observed ++ new ∧ new.length ≤ 1 ∧
        new.length + requestCount s.pending.tail = requestCount s.pending ∧
        ∀ entry ∈ new, EntryAllowed s.maxLen entry := by
  obtain ⟨hp, rfl⟩ | ⟨later, ⟨hp, rfl⟩ | ⟨r, hp, hserve⟩⟩ := step_next_cases h
  · exact ⟨rfl, by simp [hp], [], by simp, by simp, by simp [hp], by simp⟩
  · exact ⟨rfl, by simp [hp], [], by simp, by simp, by simp [hp, requestCount], by simp⟩
  · obtain ⟨hmaxLen, hpending, entry, hobserved, hentry⟩ := serve_frame hserve
    exact ⟨hmaxLen, by simp [hp, hpending], [entry], hobserved, by simp, by simp [hp, requestCount, Nat.add_comm],
      by simpa using hentry⟩

/-- The counted part of the run's invariant: entries observed and requests still pending. -/
theorem step_requestCount {s t : State} (h : step s = .next t) :
    t.observed.length + requestCount t.pending = s.observed.length + requestCount s.pending := by
  obtain ⟨-, hpending, new, hobserved, -, hcount, -⟩ := step_frame h
  rw [hpending, hobserved, List.length_append, ← hcount, Nat.add_assoc]

/-- Settles O15: a step moves one request from the pending list to the observation, where its response fits MAXLEN. -/
theorem stepKeepsRunInvariant : Obligations.StepKeepsRunInvariant := by
  rintro n s t ⟨hcount, hfits⟩ h
  obtain ⟨hmaxLen, -, new, hobserved, -, -, hnew⟩ := step_frame h
  refine ⟨(step_requestCount h).trans hcount, fun y hy => ?_⟩
  rw [hobserved, List.mem_append] at hy
  rw [hmaxLen]
  obtain hold | hnewEntry := hy
  · exact hfits y hold
  · exact hnew _ hnewEntry y rfl

/-- Settles O16: after reset nothing is pending and nothing observed. -/
theorem runInvariantAtReset : Obligations.RunInvariantAtReset := by
  refine ⟨rfl, fun y hy => ?_⟩
  cases hy

/-- Settles O13: the frame that every kind of step keeps, without what it says of the entry added. -/
theorem stepFrame : Obligations.StepFrame := by
  intro s t h
  obtain ⟨hmaxLen, hpending, new, hobserved, hlength, -⟩ := step_frame h
  exact ⟨hmaxLen, hpending, new, hobserved, hlength⟩

/-- Settles O8: the idle case of the step (log entry 2). -/
theorem idleStepKeepsState : Obligations.IdleStepKeepsState := fun _ h => step_of_idle h

/-- Settles O9: the host's reset clears `seeded`, takes a free source and leaves the host's side (log entry 7). -/
theorem resetLeavesUnseeded : Obligations.ResetLeavesUnseeded := by
  refine ⟨rfl, fun s later hp => ⟨Config.freeSource s.fresh, ?_⟩⟩
  rw [step_of_pending hp]
  rfl

/-! ### The block -/

/-- A request that decodes to INJECT has `op` 3 (R51). -/
theorem op_of_decode_inject {r : Request} {S : Bits} (h : decodeRequest r = .ok (.inject S)) : r.op = 3 := by
  obtain ⟨hop, -⟩ := decodeRequest_eq_ok_iff.1 h
  exact hop

/-- Serving a request leaves the block alone, or it is an INJECT, after which the block is seeded and no free source was
taken from a seeded one (R15, R17, R143). -/
theorem serve_block {r : Request} {s t : State} (h : serve r s = .next t) :
    (t.block = s.block ∧ t.fresh = s.fresh) ∨
    (r.op = 3 ∧ t.block.seeded = true ∧ (s.block.seeded = true → t.fresh = s.fresh)) := by
  obtain rfl | ⟨i, u, y, hd, rfl, -, -, -, -, rfl | ⟨⟨S, rfl⟩, hseeded, hfresh⟩⟩ := serve_next_cases h
  · exact .inl ⟨rfl, rfl⟩
  · exact .inl ⟨rfl, rfl⟩
  · exact .inr ⟨op_of_decode_inject hd, hseeded, hfresh⟩

/-- Settles O10: only a reset takes `seeded` back to 0, and an INJECT on a seeded block takes no free source. -/
theorem seededUntilReset : Obligations.SeededUntilReset := by
  intro s t h hseeded
  obtain ⟨-, rfl⟩ | ⟨later, ⟨hp, -⟩ | ⟨r, -, hserve⟩⟩ := step_next_cases h
  · exact .inr ⟨hseeded, rfl⟩
  · exact .inl ⟨later, hp⟩
  · obtain ⟨hblock, hfresh⟩ | ⟨-, hstays, hfresh⟩ := serve_block hserve
    · exact .inr ⟨(congrArg Block.seeded hblock).trans hseeded, hfresh⟩
    · exact .inr ⟨hstays, hfresh hseeded⟩

/-- Settles O11: an idle step and a request of any other `op` leave the block as it was. -/
theorem onlyInjectAndResetTouchBlock : Obligations.OnlyInjectAndResetTouchBlock := by
  intro s t h hchanged
  obtain ⟨-, rfl⟩ | ⟨later, ⟨hp, -⟩ | ⟨r, hp, hserve⟩⟩ := step_next_cases h
  · exact absurd rfl hchanged
  · exact .inl ⟨later, hp⟩
  · obtain ⟨hblock, -⟩ | ⟨hop, -⟩ := serve_block hserve
    · exact absurd hblock hchanged
    · exact .inr ⟨r, later, hp, hop⟩

/-! ### Runs -/

theorem core_run_succ {s t : State} (h : step s = .next t) (k : Nat) : core.run (k + 1) s = core.run k t := by
  have hcore : core.step s = .next t := h
  simp only [Host.Core.run, hcore]

/-- Settles O14: by induction on the number of pending actions, each of which one step takes. -/
theorem everyRunEnds : Obligations.EveryRunEnds := by
  intro s
  induction hk : s.pending.length generalizing s with
  | zero =>
    have hp : s.pending = [] := List.length_eq_zero_iff.1 hk
    exact ⟨s, rfl, hp, by simp [hp, requestCount]⟩
  | succ k ih =>
    obtain ⟨t, hstep⟩ := everyStepAnswers s
    obtain ⟨-, hpending, -⟩ := step_frame hstep
    obtain ⟨u, hrun, hdone, hcount⟩ := ih t (by rw [hpending, List.length_tail, hk, Nat.add_sub_cancel])
    exact ⟨u, (core_run_succ hstep k).trans hrun, hdone, hcount.trans (step_requestCount hstep)⟩

end Sys2Proof.Machine
end

section
/-! The operations on their own: the BitPacker as an inverse pair, the five that read no state, the seeding of the first
INJECT, and ENCODE and DECODE over concatenation (R8, R17, R32, R66, R77, R97, R144). -/

namespace Sys2Proof.Machine

/-! ### Granules -/

/-- Nothing is appended to whole granules (R28). -/
theorem padTo_of_whole {m : Nat} {S : Bits} (h : S.length % m = 0) : padTo m S = S := by
  simp [padTo, h]

/-- Nothing is dropped from whole granules (R29). -/
theorem truncTo_of_whole {m : Nat} {S : Bits} (h : S.length % m = 0) : truncTo m S = S := by
  rw [truncTo, Nat.mul_div_cancel' (Nat.dvd_of_mod_eq_zero h), List.take_length]

/-- Padding falls behind whole granules (R28). -/
theorem padTo_append {m : Nat} {S1 : Bits} (h : S1.length % m = 0) (S2 : Bits) :
    padTo m (S1 ++ S2) = S1 ++ padTo m S2 := by
  have hmod : (S1 ++ S2).length % m = S2.length % m := by
    rw [List.length_append, Nat.add_mod, h, Nat.zero_add, Nat.mod_mod]
  rw [padTo, padTo, hmod, List.append_assoc]

/-! ### UNPACK and PACK -/

/-- Unpacking the whole windows gives all but the tail that completes no byte (R61, R62). -/
theorem unpackBits_byteWindows (S : Bits) : unpackBits (byteWindows S) = truncTo 8 S := by
  rw [truncTo, ← byteWindows_length, ← unpackBits_length]
  exact List.prefix_iff_eq_take.1 (unpackBits_byteWindows_prefix S)

/-- What is left of a sequence after PACK and UNPACK: it is padded or truncated to whole bytes (R63, R66). -/
theorem unpackBits_packBits (pad : Bit) (S : Bits) :
    unpackBits (packBits pad S) = if pad then padTo 8 S else truncTo 8 S := by
  have whole : (if pad then padTo 8 S else truncTo 8 S).length % 8 = 0 := by cases pad <;> simp
  rw [packBits, unpackBits_byteWindows, truncTo_of_whole whole]

theorem unpackBits_packBits_of_whole (pad : Bit) {S : Bits} (h : S.length % 8 = 0) :
    unpackBits (packBits pad S) = S := by
  rw [unpackBits_packBits, padTo_of_whole h, truncTo_of_whole h, ite_self]

theorem unpackBits_injective : Function.Injective unpackBits := fun B D h => by
  have windows (E : Bytes) : byteWindows (unpackBits E) = E := by
    simpa [unpackBits] using byteWindows_flatMap E [] (by decide)
  rw [← windows B, h, windows]

/-- PACK gives the unpacked bytes back for either `pad` (R66). -/
theorem packBits_unpackBits (pad : Bit) (B : Bytes) : packBits pad (unpackBits B) = B :=
  unpackBits_injective (unpackBits_packBits_of_whole pad (by simp))

/-- Settles O20: bytes are whole, so nothing is padded or dropped; a sequence is padded or truncated once. -/
theorem packUnpackInverse : Obligations.PackUnpackInverse := by
  constructor
  · intro pad B s hfits
    have packed : Answers (.pack pad (unpackBits B)) s (.bytes (packBits pad (unpackBits B))) :=
      answers_pack pad (by rwa [unpackBits_length])
    rw [packBits_unpackBits] at packed
    exact ⟨unpackBits B, answers_unpack hfits, packed⟩
  · intro pad S s hfits
    have noLonger : (packBits pad S).length ≤ (S.length + 7) / 8 := by
      rw [packBits_length]
      split <;> omega
    have unpacked : Answers (.unpack (packBits pad S)) s (.bits (unpackBits (packBits pad S))) :=
      answers_unpack (fits_mono (by omega) hfits)
    rw [unpackBits_packBits] at unpacked
    exact ⟨packBits pad S, answers_pack pad (fits_mono (by omega) hfits), unpacked⟩

/-- The truncated sequence begins with the whole one only when nothing was dropped (R144). -/
theorem take_truncTo_eq_iff {m : Nat} {S : Bits} : (truncTo m S).take S.length = S ↔ S.length % m = 0 := by
  rw [List.take_of_length_le (by rw [truncTo_length]; exact Nat.mul_div_le _ _)]
  refine ⟨fun h => ?_, truncTo_of_whole⟩
  have hlength := congrArg List.length h
  rw [truncTo_length] at hlength
  exact Nat.mod_eq_zero_of_dvd ⟨_, hlength.symm⟩

theorem take_padTo (m : Nat) (S : Bits) : (padTo m S).take S.length = S := by
  rw [padTo, List.take_left]

/-- Settles O21: padding only appends, and truncation drops bits exactly when the length is off the granule. -/
theorem packLosesBitsOnlyOffDuty : Obligations.PackLosesBitsOnlyOffDuty := by
  intro pad S s hfits
  obtain ⟨B, hpack, hunpack⟩ := packUnpackInverse.2 pad S s hfits
  refine ⟨B, _, hpack, hunpack, ?_⟩
  cases pad with
  | true => exact iff_of_true (take_padTo 8 S) (.inl rfl)
  | false => exact take_truncTo_eq_iff.trans (by simp [PackDutyKept])

/-! ### Operations that read no state -/

/-- Settles O17: the answer of each of the five is a function of its operand alone. -/
theorem pureOperationsIgnoreState : Obligations.PureOperationsIgnoreState := by
  intro i hpure
  have lengths {s : State} (h : i.WellFormed s.maxLen) := wellFormed_iff.1 h
  cases i with
  | unpack B => exact ⟨_, fun s h => answers_unpack (lengths h).2⟩
  | pack pad S => exact ⟨_, fun s h => answers_pack pad (lengths h).1⟩
  | encode S => exact ⟨_, fun s h => answers_encode (lengths h).2⟩
  | inject S => exact absurd rfl (hpure S)
  | syndrome C => exact ⟨_, fun s h => answers_syndrome C (lengths h).1⟩
  | decode S => exact ⟨_, fun s h => answers_decode (lengths h).1⟩

/-- INJECT runs as on the block its own seeding leaves (R17, R143). -/
theorem exec_inject_seedSource (S : Bits) (s : State) : exec (.inject S) s = exec (.inject S) s.seedSource := by
  have once : s.seedSource.seedSource = s.seedSource := State.seedSource_of_seeded (State.seedSource_seeded s)
  simp [exec, execInject, respond, once]

/-- Settles O27: the operation sees the source only after seeding, and with no whole word it makes no draw. -/
theorem firstInjectSeeds : Obligations.FirstInjectSeeds := by
  intro S s hunseeded hfits
  have seeded := State.seedSource_of_unseeded hunseeded
  constructor
  · rw [← seeded]
    exact exec_inject_seedSource S s
  · intro hshort
    have noDraw : injectBits (Config.freeSource s.fresh) S = (S, Config.freeSource s.fresh) :=
      injectBits_words (Config.freeSource s.fresh) [] S hshort
    rw [exec_inject_of_fits hfits, seeded]
    simp only [noDraw]
    rfl

/-! ### ENCODE and DECODE over concatenation -/

theorem groupWindows_groups_append (Gs : List DataGroup) (rest : Bits) :
    groupWindows (Gs.flatMap groupBits ++ rest) = Gs ++ groupWindows rest := by
  induction Gs with
  | nil => rfl
  | cons G Gs ih => exact congrArg (G :: ·) ih

theorem wordWindows_words_append (Cs : List Codeword) (rest : Bits) :
    wordWindows (Cs.flatMap Codeword.toBits ++ rest) = Cs ++ wordWindows rest := by
  induction Cs with
  | nil => rfl
  | cons C Cs ih => exact congrArg (C :: ·) ih

/-- A sequence of whole DataGroups is nothing else (R41). -/
theorem exists_groups {S : Bits} (h : S.length % 4 = 0) : ∃ Gs, S = List.flatMap groupBits Gs := by
  obtain ⟨Gs, tail, rfl, ht⟩ := exists_groups_append S
  rw [List.length_append, length_flatMap_of_width groupBits_length] at h
  obtain rfl : tail = [] := List.length_eq_zero_iff.1 (by omega)
  exact ⟨Gs, List.append_nil _⟩

/-- A sequence of whole codewords is nothing else (R42). -/
theorem exists_words {S : Bits} (h : S.length % 7 = 0) : ∃ Cs, S = List.flatMap Codeword.toBits Cs := by
  obtain ⟨Cs, tail, rfl, ht⟩ := exists_words_append S
  rw [List.length_append, length_flatMap_of_width toBits_length] at h
  obtain rfl : tail = [] := List.length_eq_zero_iff.1 (by omega)
  exact ⟨Cs, List.append_nil _⟩

theorem encodeBits_groups_append (Gs : List DataGroup) (S : Bits) :
    encodeBits (Gs.flatMap groupBits ++ S) = (Gs.map enc4).flatMap Codeword.toBits ++ encodeBits S := by
  have whole : (Gs.flatMap groupBits).length % 4 = 0 := by rw [length_flatMap_of_width groupBits_length]; omega
  rw [encodeBits, encodeBits, padTo_append whole, groupWindows_groups_append, List.flatMap_append, List.flatMap_map]

theorem encodeBits_groups (Gs : List DataGroup) :
    encodeBits (Gs.flatMap groupBits) = (Gs.map enc4).flatMap Codeword.toBits := by
  have empty : encodeBits [] = [] := by decide
  simpa [empty] using encodeBits_groups_append Gs []

theorem decodeBits_words_append (Cs : List Codeword) (S : Bits) :
    decodeBits (Cs.flatMap Codeword.toBits ++ S) = (Cs.map dec7).flatMap groupBits ++ decodeBits S := by
  rw [decodeBits, decodeBits, wordWindows_words_append, List.flatMap_append, List.flatMap_map]

theorem decodeBits_words (Cs : List Codeword) :
    decodeBits (Cs.flatMap Codeword.toBits) = (Cs.map dec7).flatMap groupBits := by
  have empty : decodeBits [] = [] := by decide
  simpa [empty] using decodeBits_words_append Cs []

/-- R77 for the result of ENCODE. -/
theorem encodeBits_append {S1 : Bits} (h : S1.length % 4 = 0) (S2 : Bits) :
    encodeBits (S1 ++ S2) = encodeBits S1 ++ encodeBits S2 := by
  obtain ⟨Gs, rfl⟩ := exists_groups h
  rw [encodeBits_groups_append, encodeBits_groups]

/-- R97 for the result of DECODE. -/
theorem decodeBits_append {S1 : Bits} (h : S1.length % 7 = 0) (S2 : Bits) :
    decodeBits (S1 ++ S2) = decodeBits S1 ++ decodeBits S2 := by
  obtain ⟨Cs, rfl⟩ := exists_words h
  rw [decodeBits_words_append, decodeBits_words]

/-- Settles O25: the groups of `S1` come first, and the padding falls behind `S2`. -/
theorem encodeActsGroupByGroup : Obligations.EncodeActsGroupByGroup := by
  intro S1 S2 s hwhole hfits
  refine ⟨encodeBits S1, encodeBits S2, answers_encode (fits_mono (by omega) hfits),
    answers_encode (fits_mono (by omega) hfits), ?_⟩
  rw [← encodeBits_append hwhole]
  exact answers_encode (by rwa [List.length_append])

/-- Settles O34: the words of `S1` come first, and the bits discarded stand behind `S2`. -/
theorem decodeActsWordByWord : Obligations.DecodeActsWordByWord := by
  intro S1 S2 s hwhole hfits
  refine ⟨decodeBits S1, decodeBits S2, answers_decode (fits_mono (by omega) hfits),
    answers_decode (fits_mono (by omega) hfits), ?_⟩
  rw [← decodeBits_append hwhole]
  exact answers_decode (by rwa [List.length_append])

end Sys2Proof.Machine
end

section
/-! The code: the syndrome as a linear map, the valid codewords it separates, one and two errors per word, and DECODE
after ENCODE (R90 to R93, R100 to R102, R146, R150). -/

namespace Sys2Proof.Machine

/-! ### The syndrome -/

/-- Settles O30: SYNDROME answers the closed form of the procedure, slot 0 first. -/
theorem syndromeResult : Obligations.SyndromeResult := by
  intro C s hfits
  have answer := answers_syndrome C hfits
  rw [synd7_closedForm] at answer
  exact answer

/-- A slot of the sum of two words is the sum of their slots (R91). -/
theorem xor_four_xor : ∀ a b c d e f g h : Bit,
    ((a ^^ e) ^^ (b ^^ f) ^^ (c ^^ g) ^^ (d ^^ h)) = ((a ^^ b ^^ c ^^ d) ^^ (e ^^ f ^^ g ^^ h)) := by decide

/-- Settles O31: every slot of the closed form is an exclusive or of four bits, so it is linear. -/
theorem syndromeClosedFormAndLinear : Obligations.SyndromeClosedFormAndLinear := by
  refine ⟨synd7_closedForm, fun C E => ?_⟩
  simp only [synd7_closedForm, xorSlots, xor_four_xor]

/-- A syndrome of 0 is three even parity checks (R46, R93). -/
theorem validCodeword_iff_synd7 {C : Codeword} : validCodeword C = true ↔ synd7 C = ⟨false, false, false⟩ := by
  refine ⟨synd7_of_validCodeword, fun h => ?_⟩
  rw [synd7_eq_parityChecks, Triple.mk.injEq] at h
  obtain ⟨check4, check2, check1⟩ := h
  rw [validCodeword, check1, check2, check4]
  rfl

/-- The integer of a triple has its slots as binary digits (R44). -/
theorem positionCode_tripleInt (t : Triple) : positionCode (tripleInt t) = t := by
  obtain ⟨s4, s2, s1⟩ := t
  cases s4 <;> cases s2 <;> cases s1 <;> rfl

theorem syndInt_eq_zero_iff {C : Codeword} : syndInt C = 0 ↔ validCodeword C = true := by
  rw [validCodeword_iff_synd7]
  refine ⟨fun h => ?_, fun h => by rw [syndInt, h]; rfl⟩
  rw [← positionCode_tripleInt (synd7 C), ← syndInt, h]
  rfl

/-! ### Correction -/

theorem xorSlots_self (t : Triple) : xorSlots t t = ⟨false, false, false⟩ := by simp [xorSlots]

/-- A nonzero syndrome is the Hamming position of the index it is corrected at (R43, R94). -/
theorem seven_sub_indexOf : ∀ p ≤ 7, p ≠ 0 → 7 - (indexOf p).val = p := by decide

theorem syndInt_le (C : Codeword) : syndInt C ≤ 7 := by
  have bit (b : Bit) := Bool.toNat_le b
  have h4 := bit (synd7 C).s4
  have h2 := bit (synd7 C).s2
  have h1 := bit (synd7 C).s1
  rw [syndInt, tripleInt]
  omega

/-- Correction always ends in a valid codeword: the flip cancels the syndrome (R94, R102). -/
theorem validCodeword_correct7 (C : Codeword) : validCodeword (correct7 C) = true := by
  by_cases h : syndInt C = 0
  · rw [correct7, if_pos h]
    exact syndInt_eq_zero_iff.1 h
  · rw [correct7, if_neg h, validCodeword_iff_synd7, synd7_flipAt, seven_sub_indexOf _ (syndInt_le C) h, syndInt,
      positionCode_tripleInt, xorSlots_self]

theorem correct7_of_validCodeword {C : Codeword} (h : validCodeword C = true) : correct7 C = C := by
  rw [correct7, if_pos (syndInt_eq_zero_iff.2 h)]

/-- Correction undoes at most one negated bit (R100, R101). -/
theorem WithinOneFlip.correct7_eq {C D : Codeword} (h : WithinOneFlip C D) (hC : validCodeword C = true) :
    correct7 D = C := by
  obtain rfl | ⟨i, rfl⟩ := h
  · exact correct7_of_validCodeword hC
  · exact correct7_flipAt_of_validCodeword hC i

/-- Every word is within one flip of what it is corrected to (R93, R94). -/
theorem withinOneFlip_correct7 (C : Codeword) : WithinOneFlip (correct7 C) C := by
  by_cases h : syndInt C = 0
  · exact .inl (by rw [correct7, if_pos h])
  · exact .inr ⟨indexOf (syndInt C), by rw [correct7, if_neg h, flipAt_flipAt]⟩

/-- Settles O32: the valid codeword a word is within one flip of is the one it is corrected to. -/
theorem syndromeNamesThePosition : Obligations.SyndromeNamesThePosition := by
  refine ⟨fun C => syndInt_eq_zero_iff, fun C i hC => syndInt_flipAt_of_validCodeword hC i, fun C => ?_⟩
  exact ⟨correct7 C, validCodeword_correct7 C, withinOneFlip_correct7 C,
    fun W hW hone => (WithinOneFlip.correct7_eq hone hW).symm⟩

theorem map_not_getElem?_ne (C : Codeword) {n : Nat} (hn : n < 7) : C.toBits[n]?.map (!·) ≠ C.toBits[n]? := by
  have inside : n < C.toBits.length := hn
  simp [List.getElem?_eq_getElem inside]

/-- Two negated bits are not at most one: both indices differ. -/
theorem not_withinOneFlip_of_two_flips (C : Codeword) {i j : Fin 7} (hij : i ≠ j) :
    ¬ WithinOneFlip C (flipAt (flipAt C i) j) := by
  intro h
  have hval : i.val ≠ j.val := Fin.val_ne_of_ne hij
  have differs_at_i : (flipAt (flipAt C i) j).toBits[i.val]? ≠ C.toBits[i.val]? := by
    rw [getElem?_flipAt _ j _ i.isLt, if_neg hval.symm, getElem?_flipAt C i _ i.isLt, if_pos rfl]
    exact map_not_getElem?_ne C i.isLt
  have differs_at_j : (flipAt (flipAt C i) j).toBits[j.val]? ≠ C.toBits[j.val]? := by
    rw [getElem?_flipAt _ j _ j.isLt, if_pos rfl, getElem?_flipAt C i _ j.isLt, if_neg hval]
    exact map_not_getElem?_ne C j.isLt
  exact hval (h.index_unique i.isLt j.isLt differs_at_i differs_at_j)

/-- Two valid codewords are never two flips apart: the word between them would be corrected to both. -/
theorem not_validCodeword_of_two_flips {C : Codeword} {i j : Fin 7} (hC : validCodeword C = true) (hij : i ≠ j) :
    validCodeword (flipAt (flipAt C i) j) ≠ true := by
  intro hD
  have backToD := correct7_flipAt_of_validCodeword hD j
  rw [flipAt_flipAt, correct7_flipAt_of_validCodeword hC i] at backToD
  exact not_withinOneFlip_of_two_flips C hij (.inl backToD.symm)

/-- Settles O36: a word two flips away is within one flip of the valid codeword it is corrected to, which is therefore
another. -/
theorem doubleErrorIsMiscorrected : Obligations.DoubleErrorIsMiscorrected := by
  intro C i j hC hij
  have near := withinOneFlip_correct7 (flipAt (flipAt C i) j)
  refine ⟨fun h => not_validCodeword_of_two_flips hC hij (syndInt_eq_zero_iff.1 h), fun h => ?_,
    validCodeword_correct7 _⟩
  rw [h] at near
  exact not_withinOneFlip_of_two_flips C hij near

/-! ### DECODE after ENCODE -/

theorem validCodeword_enc4 (G : DataGroup) : validCodeword (enc4 G) = true :=
  validCodeword_iff_synd7.2 (synd7_enc4 G)

theorem extract4_enc4 (G : DataGroup) : extract4 (enc4 G) = G := rfl

/-- With at most one bit in error the data bits come out (R100, R101). -/
theorem WithinOneFlip.dec7_eq {G : DataGroup} {D : Codeword} (h : WithinOneFlip (enc4 G) D) : dec7 D = G := by
  rw [dec7, h.correct7_eq (validCodeword_enc4 G), extract4_enc4]

theorem map_dec7_of_withinOneFlip {Gs : List DataGroup} {Ds : List Codeword}
    (h : List.Forall₂ WithinOneFlip (Gs.map enc4) Ds) : Ds.map dec7 = Gs := by
  induction Gs generalizing Ds with
  | nil => cases h; rfl
  | cons G Gs ih =>
    obtain _ | ⟨hword, hwords⟩ := h
    rw [List.map_cons, hword.dec7_eq, ih hwords]

/-- The padded operand is whole groups, and ENCODE's result their codewords (R73). -/
theorem exists_groups_of_encode (S : Bits) :
    ∃ Gs, padTo 4 S = List.flatMap groupBits Gs ∧ encodeBits S = (Gs.map enc4).flatMap Codeword.toBits := by
  obtain ⟨Gs, hGs⟩ := exists_groups (S := padTo 4 S) (by simp)
  have padded : encodeBits S = encodeBits (padTo 4 S) := by
    rw [encodeBits, encodeBits, padTo_of_whole (S := padTo 4 S) (by simp)]
  exact ⟨Gs, hGs, by rw [padded, hGs, encodeBits_groups]⟩

/-- DECODE of a result of ENCODE with at most one error per codeword, whatever follows it (R101, R146, R150). -/
theorem decodeBits_of_withinOneFlip {Gs : List DataGroup} {Ds : List Codeword}
    (h : List.Forall₂ WithinOneFlip (Gs.map enc4) Ds) (rest : Bits) :
    decodeBits (Ds.flatMap Codeword.toBits ++ rest) = Gs.flatMap groupBits ++ decodeBits rest := by
  rw [decodeBits_words_append, map_dec7_of_withinOneFlip h]

theorem decodeBits_encodeBits_append (S rest : Bits) :
    decodeBits (encodeBits S ++ rest) = padTo 4 S ++ decodeBits rest := by
  obtain ⟨Gs, hpad, henc⟩ := exists_groups_of_encode S
  rw [hpad, henc]
  exact decodeBits_of_withinOneFlip (List.forall₂_same.2 fun _ _ => .inl rfl) rest

/-- R101 for the results. -/
theorem decodeBits_encodeBits (S : Bits) : decodeBits (encodeBits S) = padTo 4 S := by
  have empty : decodeBits [] = [] := by decide
  simpa [empty] using decodeBits_encodeBits_append S []

/-- Settles O37: a valid codeword is corrected to itself, so the padded groups come back. -/
theorem decodeUndoesEncode : Obligations.DecodeUndoesEncode := by
  refine ⟨fun C hC => ⟨syndInt_eq_zero_iff.2 hC, correct7_of_validCodeword hC, ?_⟩,
    fun G => WithinOneFlip.dec7_eq (.inl rfl), fun S s hfits => ⟨encodeBits S, answers_encode hfits, ?_⟩⟩
  · rw [dec7, correct7_of_validCodeword hC]
  · have answer : Answers (.decode (encodeBits S)) s (.bits (decodeBits (encodeBits S))) :=
      answers_decode (by rwa [encodeBits_length])
    rwa [decodeBits_encodeBits] at answer

/-- Whole words leave no trailing bits (R84). -/
theorem sameTrailingBits_of_whole {S T : Bits} (hS : S.length % 7 = 0) (hlength : T.length = S.length) :
    SameTrailingBits S T := by
  intro i hi
  rw [List.getElem?_eq_none (by omega), List.getElem?_eq_none (by omega)]

/-- R146 for the results. -/
theorem decodeBits_of_oneErrorPerWord {S U : Bits} (h : AtMostOneErrorPerWord (encodeBits S) U) :
    decodeBits U = padTo 4 S := by
  have trailing := sameTrailingBits_of_whole (by simp) h.1
  obtain ⟨Gs, hpad, henc⟩ := exists_groups_of_encode S
  rw [henc, ← List.append_nil (List.flatMap _ _)] at h trailing
  obtain ⟨Ds, rfl, hflips⟩ := exists_words_of_shape (by decide) h trailing
  rw [decodeBits_of_withinOneFlip hflips, hpad]
  exact List.append_nil _

/-- Settles O38: each word of `U` is within one flip of a codeword of ENCODE's result. -/
theorem decodeCorrectsOneErrorPerWord : Obligations.DecodeCorrectsOneErrorPerWord := by
  intro S s hfits
  refine ⟨encodeBits S, answers_encode hfits, fun U hU => ?_⟩
  have answer : Answers (.decode U) s (.bits (decodeBits U)) :=
    answers_decode (by rwa [hU.1, encodeBits_length])
  rwa [decodeBits_of_oneErrorPerWord hU] at answer

/-- Fewer than 8 zeros hold a codeword only if there are 7, and it decodes to zeros (R97, R150). -/
theorem decodeBits_zeros {p : Nat} (hp : p < 8) :
    decodeBits (List.replicate p false) = if p = 7 then [false, false, false, false] else [] := by
  interval_cases p <;> decide

/-- The padding of whole codewords to whole bytes is 7 zeros exactly when their count is 7 modulo 8 (R150). -/
theorem padTo_eight_words {S : Bits} {c : Nat} (h : S.length = 7 * c) :
    ∃ p < 8, padTo 8 S = S ++ List.replicate p false ∧ (p = 7 ↔ c % 8 = 7) :=
  ⟨(8 - S.length % 8) % 8, by omega, rfl, by omega⟩

/-- DECODE of ENCODE's result padded to whole bytes (R101, R150). -/
theorem decodeBits_padTo_encodeBits (S : Bits) :
    decodeBits (padTo 8 (encodeBits S)) =
      padTo 4 S ++ if (S.length + 3) / 4 % 8 = 7 then [false, false, false, false] else [] := by
  obtain ⟨p, hp, hpad, hseven⟩ := padTo_eight_words (encodeBits_length S)
  simp only [hpad, decodeBits_encodeBits_append, decodeBits_zeros hp, hseven]

/-- Settles O42: the zeros of PACK stand behind whole codewords, and fewer than 8 zeros are a codeword only if 7. -/
theorem padBitsMakeAnExtraGroup : Obligations.PadBitsMakeAnExtraGroup := by
  intro S s hfits
  have packed : Answers (.pack true (encodeBits S)) s (.bytes (packBits true (encodeBits S))) :=
    answers_pack true (by rw [encodeBits_length]; exact fits_mono (by omega) hfits)
  have unpacked : Answers (.unpack (packBits true (encodeBits S))) s (.bits (padTo 8 (encodeBits S))) := by
    have answer := answers_unpack (B := packBits true (encodeBits S)) (s := s)
      (by simpa [packBits_length] using hfits)
    rwa [unpackBits_packBits, if_pos rfl] at answer
  have decoded : Answers (.decode (padTo 8 (encodeBits S))) s (.bits (decodeBits (padTo 8 (encodeBits S)))) :=
    answers_decode (by simpa using hfits)
  rw [decodeBits_padTo_encodeBits] at decoded
  exact ⟨_, _, _, answers_encode (fits_mono (by omega) hfits), packed, unpacked, decoded⟩

end Sys2Proof.Machine
end

section
/-! The pipelines: the file each of the three makes of its operand, the file's size, and the round trips without and
with noise (R110 to R116). -/

namespace Sys2Proof.Machine

/-! ### Three requests in a row -/

/-- The host asks for an operation that only answers: it gets the answer, and the observation alone has grown. -/
theorem issue_of_answers {i : Instr} {s : State} {y : Payload} (h : Answers i s y) :
    issue (encodeRequest i).ctl (encodeRequest i).operand s = some (y, s.reply y) :=
  issue_reply (decodeAndEncodeAgree.1 i) h

/-- INJECT as a request, whatever the source draws (R81). -/
theorem issue_inject {S : Bits} {s : State} (h : fits s.maxLen S.length = true) :
    ∃ rs t, issue 0x3#4 (.bits S) s = some (.bits (injectBits rs S).1, t) ∧ t.maxLen = s.maxLen :=
  ⟨s.seedSource.block.rs, _, issue_next (decodeAndEncodeAgree.1 (.inject S)) (exec_inject_of_fits h) (by simp),
    by simp⟩

/-- All three pipelines: UNPACK, an operation on the bits, PACK pad=1 of its result (R111 to R113). -/
theorem issue3_unpack_pack {ctl : BitVec 4} {B : Bytes} {T : Bits} {s t : State}
    (hB : fits s.maxLen (8 * B.length) = true)
    (h : issue ctl (.bits (unpackBits B)) (s.reply (.bits (unpackBits B))) = some (.bits T, t))
    (hT : fits t.maxLen T.length = true) :
    issue3 0x0#4 ctl 0x9#4 (.bytes B) s = some (.bytes (packBits true T), t.reply (.bytes (packBits true T))) := by
  have first : issue 0x0#4 (.bytes B) s = some (.bits (unpackBits B), s.reply (.bits (unpackBits B))) :=
    issue_of_answers (answers_unpack hB)
  have last : issue 0x9#4 (.bits T) t = some (.bytes (packBits true T), t.reply (.bytes (packBits true T))) :=
    issue_of_answers (answers_pack true hT)
  simp [issue3, first, h, last]

/-! ### The files -/

/-- The file ENCODE_FILE makes of `B` (R111). -/
def encodedFile (B : Bytes) : Bytes :=
  packBits true (encodeBits (unpackBits B))

/-- The size of R114. -/
@[simp] theorem encodedFile_length (B : Bytes) : (encodedFile B).length = (7 * B.length + 3) / 4 := by
  simp only [encodedFile, packBits_length, encodeBits_length, unpackBits_length, if_true]
  omega

theorem unpackBits_encodedFile (B : Bytes) : unpackBits (encodedFile B) = padTo 8 (encodeBits (unpackBits B)) := by
  rw [encodedFile, unpackBits_packBits, if_pos rfl]

theorem encodeFile_eq {B : Bytes} {s : State} (h : fits s.maxLen (14 * B.length) = true) :
    ∃ t, encodeFile B s = some (.bytes (encodedFile B), t) ∧ t.block = s.block ∧ t.maxLen = s.maxLen ∧
      t.pending = s.pending := by
  have resultFits : fits s.maxLen (7 * (((unpackBits B).length + 3) / 4)) = true :=
    fits_mono (by rw [unpackBits_length]; omega) h
  have encoded : Answers (.encode (unpackBits B)) (s.reply (.bits (unpackBits B)))
      (.bits (encodeBits (unpackBits B))) :=
    answers_encode resultFits
  exact ⟨_, issue3_unpack_pack (fits_mono (by omega) h) (issue_of_answers encoded)
    (by rw [encodeBits_length]; exact resultFits), rfl, rfl, rfl⟩

theorem decodeFile_eq {F : Bytes} {s : State} (h : fits s.maxLen (8 * F.length) = true) :
    ∃ t, decodeFile F s = some (.bytes (packBits true (decodeBits (unpackBits F))), t) := by
  have decoded : Answers (.decode (unpackBits F)) (s.reply (.bits (unpackBits F)))
      (.bits (decodeBits (unpackBits F))) :=
    answers_decode (by rwa [unpackBits_length])
  refine ⟨_, issue3_unpack_pack h (issue_of_answers decoded) (fits_mono ?_ h)⟩
  rw [decodeBits_length, unpackBits_length]
  omega

/-- A file is whole bytes, and INJECT keeps its length, so PACK pads nothing (R88, R113). -/
theorem noisyFile_length (rs : RSState) (F : Bytes) :
    (packBits true (injectBits rs (unpackBits F)).1).length = F.length := by
  simp only [packBits_length, injectBits_length, unpackBits_length, if_true]
  omega

/-- NOISE_FILE's file, whatever the source draws (R113). -/
theorem noiseFile_eq {F : Bytes} {s : State} (h : fits s.maxLen (8 * F.length) = true) :
    ∃ rs t, noiseFile F s = some (.bytes (packBits true (injectBits rs (unpackBits F)).1), t) ∧
      t.maxLen = s.maxLen := by
  have operandFits : fits s.maxLen (unpackBits F).length = true := by rwa [unpackBits_length]
  obtain ⟨rs, t, injected, hmaxLen⟩ := issue_inject (s := s.reply (.bits (unpackBits F))) operandFits
  have resultFits : fits t.maxLen (injectBits rs (unpackBits F)).1.length = true := by
    rwa [injectBits_length, hmaxLen]
  exact ⟨rs, _, issue3_unpack_pack h injected resultFits, hmaxLen⟩

/-! ### Round trips -/

/-- Noise between whole codewords and their decoder, with the padding of PACK behind them (R87, R116). -/
theorem decodeBits_injectBits_padTo (rs : RSState) {S : Bits} (h : (S.length + 3) / 4 % 8 ≠ 7) :
    decodeBits (injectBits rs (padTo 8 (encodeBits S))).1 = padTo 4 S := by
  obtain ⟨p, hp, hpad, hseven⟩ := padTo_eight_words (encodeBits_length S)
  have notSeven : p ≠ 7 := fun h7 => h (hseven.1 h7)
  obtain ⟨Gs, hgroups, hwords⟩ := exists_groups_of_encode S
  have short : (List.replicate p false).length < 7 := by rw [List.length_replicate]; omega
  rw [hpad, hwords, injectBits_words rs _ _ short, hgroups,
    decodeBits_of_withinOneFlip (injectWords_withinOneFlip rs _), decodeBits_zeros hp, if_neg notSeven, List.append_nil]

/-- The codewords of `n` bytes are `2*n`, never 7 modulo 8. -/
theorem codewords_of_bytes (B : Bytes) : ((unpackBits B).length + 3) / 4 % 8 ≠ 7 := by
  rw [unpackBits_length]
  omega

theorem padTo_four_unpackBits (B : Bytes) : padTo 4 (unpackBits B) = unpackBits B :=
  padTo_of_whole (by rw [unpackBits_length]; omega)

theorem decoded_encodedFile (B : Bytes) : packBits true (decodeBits (unpackBits (encodedFile B))) = B := by
  rw [unpackBits_encodedFile, decodeBits_padTo_encodeBits, if_neg (codewords_of_bytes B), List.append_nil,
    padTo_four_unpackBits, packBits_unpackBits]

/-- The noisy file is whole bytes, so PACK changes nothing of it (R66, R88). -/
theorem decoded_noisyFile (rs : RSState) (B : Bytes) :
    packBits true (decodeBits (unpackBits (packBits true (injectBits rs (unpackBits (encodedFile B))).1))) = B := by
  have whole : (injectBits rs (unpackBits (encodedFile B))).1.length % 8 = 0 := by simp
  rw [unpackBits_packBits_of_whole true whole, unpackBits_encodedFile,
    decodeBits_injectBits_padTo rs (codewords_of_bytes B), padTo_four_unpackBits, packBits_unpackBits]

/-- Settles O39: ENCODE_FILE's three requests answer, and only the observation grows. -/
theorem encodeFileSize : Obligations.EncodeFileSize := by
  intro B s hfits
  obtain ⟨t, hfile, hblock, -, hpending⟩ := encodeFile_eq hfits
  exact ⟨_, t, hfile, encodedFile_length B, hblock, hpending⟩

/-- Settles O40: the file is the codewords and at most 6 zeros, so DECODE gives the bits of `B`. -/
theorem fileRoundTrip : Obligations.FileRoundTrip := by
  intro B s hfits
  obtain ⟨t, hencoded, -, hmaxLen, -⟩ := encodeFile_eq (B := B) (fits_mono (by omega) hfits)
  obtain ⟨u, hdecoded⟩ := decodeFile_eq (F := encodedFile B) (s := t) (by rwa [encodedFile_length, hmaxLen])
  rw [decoded_encodedFile] at hdecoded
  exact ⟨_, t, u, hencoded, hdecoded⟩

/-- Settles O41: whatever is drawn, each codeword of the file has at most one error. -/
theorem noisyFileRoundTrip : Obligations.NoisyFileRoundTrip := by
  intro B s hfits
  obtain ⟨t, hencoded, -, htmaxLen, -⟩ := encodeFile_eq (B := B) (fits_mono (by omega) hfits)
  have fileFits : fits t.maxLen (8 * (encodedFile B).length) = true := by rwa [encodedFile_length, htmaxLen]
  obtain ⟨rs, u, hnoise, humaxLen⟩ := noiseFile_eq fileFits
  obtain ⟨v, hdecoded⟩ := decodeFile_eq (F := packBits true (injectBits rs (unpackBits (encodedFile B))).1) (s := u)
    (by rwa [noisyFile_length, humaxLen])
  rw [decoded_noisyFile] at hdecoded
  exact ⟨_, _, t, u, v, hencoded, hnoise, hdecoded⟩

end Sys2Proof.Machine
end
